-- ==== Sys2Proof/Word.lean ====
section
/-! DEFINITION. The plain types of the block: cells, words, register indices and binary strings
(spec/00_scope.md R11 to R14). -/

namespace Sys2Proof

/-- A memory cell: 8 bits (00_scope.md R12, R17). -/
abbrev Byte := BitVec 8

/-- A 32-bit value, `Word32` of 00_scope.md R12. Its unsigned reading is `toNat`, its signed reading
(`SInt32` of R14) is `toInt`. -/
abbrev Word := BitVec 32

/-- A register index, 0 to 31 (10_state.md R21, 30_encoding.md R95). -/
abbrev RegIx := Fin 32

/-- A binary string, leftmost character most significant (00_scope.md R13). -/
abbrev BinString := List Char

end Sys2Proof
end

