-- ==== Sys2Proof/Config.lean ====
section
/-! DEFINITION. The parameters of the block (spec/00_scope.md R11): the reference values, and the
values the spec leaves open, which have no body here. -/

namespace Sys2Proof

/-! ### The open type `AluOp` (44_pipeline_latches.md R183, D20) -/

/-- Which labels the type parameter `AluOp` has. An open value: no body, so that neither the number
of selectors nor any one of them is known. Log 4. -/
opaque Config.isAluOp : Nat → Bool

/-- The label of `aluop_reset` (R11, 10_state.md R40). An open value: no body. Log 4. -/
opaque Config.aluopResetLabel : Nat

/-- The type parameter `AluOp` (R11), the ALU operation selector of the EX latch: the labels that
`Config.isAluOp` picks and that of `aluop_reset`. Since both are open, every claim holds for every
choice of them, and no two selectors can be told apart. No rule reads one. DESIGN CHOICE, log 4. -/
structure AluOp where
  label : Nat
  isSelector : Config.isAluOp label = true ∨ label = Config.aluopResetLabel
  deriving DecidableEq, Repr

/-- The variants of the block the source names: the single-stage loop, which it specifies, and the
five-stage pipeline, which it does not (44_pipeline_latches.md R190). -/
inductive Variant where
  | singleStage
  | fiveStage
  deriving DecidableEq, Repr

namespace Config

/-- `DMEM_CAPACITY` of the reference configuration (R11, D11). Every rule reads the capacity from
the state (`dmem.size`), so claims hold for every capacity. DESIGN CHOICE, log 1. -/
def dmemCapacity : Nat := 1000

/-- `RESET_PC` (R11, 70_reset_and_hazards.md R331). -/
def resetPC : Word := 0

/-- `HALT_WORD` of the reference profile (30_encoding.md R85, D5). UNVERIFIED (the spec's own choice), log 22. -/
def haltWord : Word := 0xFFFFFFFF

/-- `aluop_reset` (R11, 10_state.md R40): the selector of the open reset label. -/
def aluopReset : AluOp := ⟨aluopResetLabel, .inr rfl⟩

/-- The draws of `branchFlag` (45_fetch_and_execution_loop.md R212, D4): draw `k` is the Boolean of
cycle `k`. A free value: no body, so that nothing can be concluded from it. Log 3. -/
opaque branchFlag : Nat → Bool

end Config
end Sys2Proof
end

