-- ==== Sys2Proof/Machine/State.lean ====
section
/-! DEFINITION. The state of the block (spec/10_state.md R20 to R40, spec/44_pipeline_latches.md
R180 to R186), its model faults (spec/60_exceptions.md R305) and the state after reset. -/

namespace Sys2Proof.Machine

/-! ### Pipeline latches -/

/-- The IF latch (44_pipeline_latches.md R181). -/
structure IFLatch where
  nop : Bool
  /-- the program counter (10_state.md R23), unsigned -/
  PC : Word
  deriving DecidableEq, Repr

/-- The ID latch (R182; layout D18, log 18). -/
structure IDLatch where
  nop : Bool
  Instr : Word
  deriving DecidableEq, Repr

/-- The EX latch (R183; layout D18, log 18). The data fields are `SInt32`: words read as signed. -/
structure EXLatch where
  nop : Bool
  Read_data1 : Word
  Read_data2 : Word
  Imm : Word
  Rs : RegIx
  Rt : RegIx
  Wrt_reg_addr : RegIx
  is_I_type : Bool
  rd_mem : Bool
  wrt_mem : Bool
  alu_op : AluOp
  wrt_enable : Bool
  deriving DecidableEq, Repr

/-- The MEM latch (R184; layout D18, log 18). -/
structure MEMLatch where
  nop : Bool
  ALUresult : Word
  Store_data : Word
  Rs : RegIx
  Rt : RegIx
  Wrt_reg_addr : RegIx
  rd_mem : Bool
  wrt_mem : Bool
  wrt_enable : Bool
  deriving DecidableEq, Repr

/-- The WB latch (R185; layout D18, log 18). -/
structure WBLatch where
  nop : Bool
  Wrt_data : Word
  Rs : RegIx
  Rt : RegIx
  Wrt_reg_addr : RegIx
  wrt_enable : Bool
  deriving DecidableEq, Repr

/-- One instance of the latch array (R180). -/
structure PipelineState where
  IF : IFLatch
  ID : IDLatch
  EX : EXLatch
  MEM : MEMLatch
  WB : WBLatch
  deriving DecidableEq, Repr

/-! ### Memories, traces, faults -/

/-- A memory of `size` cells at the addresses `[0, size)` (20_memory.md R50 to R52). `cells` lists
the cells that differ from an unset cell, in rising order of address (`Memory.wf`, log 10). -/
structure Memory where
  size : Nat
  cells : List Host.Cell
  deriving DecidableEq, Repr

/-- One register trace record (46_trace_and_metrics.md R231). -/
structure RfRecord where
  cycle : Nat
  regs : Vector Word 32
  deriving DecidableEq, Repr

/-- One pipeline-state trace record (R232). -/
structure StRecord where
  cycle : Nat
  latches : PipelineState
  deriving DecidableEq, Repr

/-- The model faults, a closed list (60_exceptions.md R305). They are outcomes of the model, not
traps (00_scope.md R16). Each is safe: the model stops where the source leaves the case unguarded. -/
inductive Fault where
  /-- raised by the fetch when its window leaves the image (R59, R121); safe (log 13) -/
  | fetchOutOfRange (pc : Nat)
  /-- raised by a data access whose window leaves the memory (R58); safe (log 14) -/
  | dataOutOfBounds (a : Int)
  /-- raised by `Codec.encode` (R103) and `RF.write` (R161) for a value the width cannot hold; safe (log 15) -/
  | codecRange (v : Int) (w : Nat)
  /-- raised by `Codec.decode` on what is no binary string (R101); safe, unreachable in the block (log 15) -/
  | codecBadString (s : BinString)
  /-- raised by `RF.read` and `RF.write` for an index outside 0..31 (R160, R161); safe (log 16) -/
  | regIndex (i : Int)
  /-- raised by a write of `nxt.IF.PC` outside `[0, 2^32)` (10_state.md R23); safe (log 16) -/
  | pcRange (v : Int)
  /-- raised by the test profile on a taken branch or a jump to a target that is no multiple of 4
  (47_test_profile.md R264 to R266); safe (log 21) -/
  | misalignedTarget (t : Nat)
  /-- raised by an executor parameter for a reason of its own (R211); safe, never by the profile (log 5) -/
  | executorFault (reason : String)
  deriving DecidableEq, Repr

/-- Why the model answers with no step. -/
inductive Refusal where
  /-- answered by an arm of `exec` that has no meaning yet; safe -/
  | notModelled (mnemonic : String)
  /-- answered by the cycle in a state with `halted = true`, which has no step
  (45_fetch_and_execution_loop.md R201, R215); safe (log 7) -/
  | noStepWhenHalted
  /-- answered by the cycle in a state whose fault mark is set, which has no step (R201, R307); safe (log 7) -/
  | noStepWhenFaulted
  /-- answered for the five-stage variant, which a model must refuse (44_pipeline_latches.md R190); safe (log 26) -/
  | fiveStageVariant
  deriving DecidableEq, Repr

/-! ### The state -/

/-- `CoreState` (10_state.md R20). Nothing else is state. -/
structure State where
  /-- instruction memory (R29); `imem.size` is `IMEM_LEN` -/
  imem : Memory
  /-- data memory (R30); `dmem.size` is `DMEM_CAPACITY` -/
  dmem : Memory
  /-- the register file (R21); each register is an `SInt32`, kept as its 32 bits (log 9) -/
  rf : Vector Word 32
  /-- the current latch instance (R28) -/
  cur : PipelineState
  /-- the next latch instance (R28, R34) -/
  nxt : PipelineState
  /-- the cycle counter, unbounded (R26) -/
  cycle : Nat
  /-- the terminal halt flag (R25) -/
  halted : Bool
  /-- the model fault mark (R31) -/
  fault : Option Fault
  /-- the register trace (R32) -/
  rfTrace : List RfRecord
  /-- the pipeline-state trace (R32) -/
  stTrace : List StRecord
  deriving DecidableEq, Repr

/-! ### Reset (10_state.md R40) -/

/-- The latches after reset: a live fetch at `RESET_PC`, every later stage a bubble (R40, D19). -/
def resetLatches : PipelineState where
  IF := { nop := false, PC := Config.resetPC }
  ID := { nop := true, Instr := 0 }
  EX :=
    { nop := true, Read_data1 := 0, Read_data2 := 0, Imm := 0, Rs := 0, Rt := 0, Wrt_reg_addr := 0,
      is_I_type := false, rd_mem := false, wrt_mem := false, alu_op := Config.aluopReset,
      wrt_enable := false }
  MEM :=
    { nop := true, ALUresult := 0, Store_data := 0, Rs := 0, Rt := 0, Wrt_reg_addr := 0,
      rd_mem := false, wrt_mem := false, wrt_enable := false }
  WB := { nop := true, Wrt_data := 0, Rs := 0, Rt := 0, Wrt_reg_addr := 0, wrt_enable := false }

/-- The state after reset with the two memories as the loaders leave them (R40; 70_reset_and_hazards.md
R330). -/
def State.resetWith (imem dmem : Memory) : State where
  imem := imem
  dmem := dmem
  rf := Vector.replicate 32 0
  cur := resetLatches
  nxt := resetLatches
  cycle := 0
  halted := false
  fault := none
  rfTrace := []
  stTrace := []

/-- The state after reset with nothing loaded: both images empty (41_instruction_memory.md R120 and
42_data_memory.md R140 accept an empty image), at the reference capacity. Log 1, log 2. -/
def State.reset : State :=
  State.resetWith { size := 0, cells := [] } { size := Config.dmemCapacity, cells := [] }

end Sys2Proof.Machine
end

