-- ==== Sys2Proof/Machine/Codec.lean ====
section
/-! DEFINITION. The two's-complement codec (spec/40_codec.md R100 to R106), at any width and on
strings, and its bit view at width 32, which the ports use (R105). -/

namespace Sys2Proof.Machine

/-- The character is one of `'0'` and `'1'` (R100). -/
def isBinaryDigit (c : Char) : Bool := c == '0' || c == '1'

/-- The unsigned value of a binary string, leftmost character most significant (R13, R101). -/
def unsignedOf : BinString → Nat
  | [] => 0
  | c :: cs => (if c = '1' then 2 ^ cs.length else 0) + unsignedOf cs

/-- `Codec.decode(s)` (R101). -/
def codecDecode (s : BinString) : Except Fault Int :=
  if s = [] ∨ s.all isBinaryDigit = false then .error (.codecBadString s)
  else if s.head? = some '1' then .ok ((unsignedOf s : Int) - 2 ^ s.length)
  else .ok (unsignedOf s)

/-- One binary digit. -/
def digitChar (n : Nat) : Char := if n = 0 then '0' else '1'

/-- The binary digits of `u`, most significant first, no leading zeros, "0" for 0 (R102); `fuel`
bounds their number. -/
def binaryDigits : (fuel : Nat) → (u : Nat) → BinString
  | 0, _ => []
  | fuel + 1, u => if u < 2 then [digitChar u] else binaryDigits fuel (u / 2) ++ [digitChar (u % 2)]

/-- `v` is representable in `w` bits, two's complement (R102, R103). No value is at width 0, which is
outside the codec's domain (R100; log 15). -/
def representable (v : Int) (w : Nat) : Bool :=
  decide (0 < w ∧ -2 ^ (w - 1) ≤ v ∧ v < 2 ^ (w - 1))

/-- `Codec.encode(v, w)` (R102, R103). -/
def codecEncode (v : Int) (w : Nat) : Except Fault BinString :=
  if representable v w = false then .error (.codecRange v w)
  else
    let u := if v < 0 then (v + 2 ^ w).toNat else v.toNat
    let pad := if v < 0 then '1' else '0'
    let t := binaryDigits w u
    .ok (List.replicate (w - t.length) pad ++ t)

/-- The binary string of a `w`-bit value (R13): character `k` is bit `w - 1 - k`. -/
def stringOfBits : {w : Nat} → BitVec w → BinString
  | w, b => (List.range w).map fun k => if b.getLsbD (w - 1 - k) then '1' else '0'

/-- `Codec.decode` at width 32 on bits: `signed(b)` (R105). -/
def signed (b : Word) : Int := b.toInt

/-- `Codec.encode` at width 32 to bits (R105, R106), after its range check (R103). -/
def encode32 (v : Int) : Except Fault Word :=
  if representable v 32 = false then .error (.codecRange v 32)
  else .ok (BitVec.ofInt 32 v)

end Sys2Proof.Machine
end

