-- ==== Sys2Proof/Syntax.lean ====
section
/-! DEFINITION. The instructions of spec/opcode_table.json, one constructor per row
(spec/30_encoding.md R96). Immediates are the signed integers of R95; what the encodings admit is
checked in WellFormed.lean. -/

namespace Sys2Proof

/-- The fifteen words of the test profile (47_test_profile.md R253 to R267). -/
inductive Instr where
  /-- `ADD rd, rs1, rs2` (R253) -/
  | add (rd rs1 rs2 : RegIx)
  /-- `SUB rd, rs1, rs2` (R254) -/
  | sub (rd rs1 rs2 : RegIx)
  /-- `XOR rd, rs1, rs2` (R255) -/
  | xor (rd rs1 rs2 : RegIx)
  /-- `OR rd, rs1, rs2` (R256) -/
  | or (rd rs1 rs2 : RegIx)
  /-- `AND rd, rs1, rs2` (R257) -/
  | and (rd rs1 rs2 : RegIx)
  /-- `ADDI rd, rs1, imm` (R258) -/
  | addi (rd rs1 : RegIx) (imm : Int)
  /-- `XORI rd, rs1, imm` (R259) -/
  | xori (rd rs1 : RegIx) (imm : Int)
  /-- `ORI rd, rs1, imm` (R260) -/
  | ori (rd rs1 : RegIx) (imm : Int)
  /-- `ANDI rd, rs1, imm` (R261) -/
  | andi (rd rs1 : RegIx) (imm : Int)
  /-- `LW rd, imm(rs1)` (R262) -/
  | lw (rd rs1 : RegIx) (imm : Int)
  /-- `SW rs2, imm(rs1)` (R263) -/
  | sw (rs2 rs1 : RegIx) (imm : Int)
  /-- `BEQ rs1, rs2, imm` (R264) -/
  | beq (rs1 rs2 : RegIx) (imm : Int)
  /-- `BNE rs1, rs2, imm` (R265) -/
  | bne (rs1 rs2 : RegIx) (imm : Int)
  /-- `JAL rd, imm` (R266) -/
  | jal (rd : RegIx) (imm : Int)
  /-- `HALT`, the end sentinel (R267) -/
  | halt
  deriving DecidableEq, Repr

end Sys2Proof
end

