-- ==== Sys2Proof/Decode.lean ====
section
/-! DEFINITION. Decoding and encoding (spec/30_encoding.md R80, R81, R90 to R97; the profile's
decoder, spec/47_test_profile.md R251). Decoding is total on words and on bytes and rejects by
name. -/

namespace Sys2Proof

/-- Why the decoder reads no instruction. -/
inductive DecodeReject where
  /-- fewer than the four cells of an instruction are given (R80) -/
  | tooShort (cells : Nat)
  /-- the word is in no row of the opcode map (R87, R96, R97) -/
  | unrecognised (w : Word)
  deriving DecidableEq, Repr

/-! ### Fields and immediates (R90 to R95) -/

/-- A 5-bit register field as a register index. -/
def regField (b : BitVec 5) : RegIx := ⟨b.toNat, b.isLt⟩

def rdOf (w : Word) : RegIx := regField (w.extractLsb' 7 5)
def rs1Of (w : Word) : RegIx := regField (w.extractLsb' 15 5)
def rs2Of (w : Word) : RegIx := regField (w.extractLsb' 20 5)

/-- `imm_I = sext(W[31:20])` (R95), read as a signed integer. -/
def immI (w : Word) : Int := (w.extractLsb' 20 12).toInt

/-- `imm_S = sext(W[31:25] ++ W[11:7])` (R95). -/
def immS (w : Word) : Int :=
  (w.extractLsb' 25 7 ++ w.extractLsb' 7 5 : BitVec 12).toInt

/-- `imm_B = sext(W[31] ++ W[7] ++ W[30:25] ++ W[11:8] ++ 0)` (R95). -/
def immB (w : Word) : Int :=
  (w.extractLsb' 31 1 ++ w.extractLsb' 7 1 ++ w.extractLsb' 25 6 ++ w.extractLsb' 8 4 ++
    (0 : BitVec 1) : BitVec 13).toInt

/-- `imm_J = sext(W[31] ++ W[19:12] ++ W[20] ++ W[30:21] ++ 0)` (R95). -/
def immJ (w : Word) : Int :=
  (w.extractLsb' 31 1 ++ w.extractLsb' 12 8 ++ w.extractLsb' 20 1 ++ w.extractLsb' 21 10 ++
    (0 : BitVec 1) : BitVec 21).toInt

/-! ### The opcode map (R96) -/

/-- One row: a word selects it when `w AND mask = pattern` (the spec's `match`). -/
structure OpcodeRow where
  mnemonic : String
  pattern : Word
  mask : Word
  build : Word → Instr

def buildR (mk : RegIx → RegIx → RegIx → Instr) (w : Word) : Instr := mk (rdOf w) (rs1Of w) (rs2Of w)
def buildI (mk : RegIx → RegIx → Int → Instr) (w : Word) : Instr := mk (rdOf w) (rs1Of w) (immI w)
def buildS (mk : RegIx → RegIx → Int → Instr) (w : Word) : Instr := mk (rs2Of w) (rs1Of w) (immS w)
def buildB (mk : RegIx → RegIx → Int → Instr) (w : Word) : Instr := mk (rs1Of w) (rs2Of w) (immB w)
def buildJ (mk : RegIx → Int → Instr) (w : Word) : Instr := mk (rdOf w) (immJ w)

/-- The table of R96, in its order. -/
def opcodeRows : List OpcodeRow :=
  [ ⟨"ADD", 0x00000033, 0xFE00707F, buildR .add⟩,
    ⟨"SUB", 0x40000033, 0xFE00707F, buildR .sub⟩,
    ⟨"XOR", 0x00004033, 0xFE00707F, buildR .xor⟩,
    ⟨"OR", 0x00006033, 0xFE00707F, buildR .or⟩,
    ⟨"AND", 0x00007033, 0xFE00707F, buildR .and⟩,
    ⟨"ADDI", 0x00000013, 0x0000707F, buildI .addi⟩,
    ⟨"XORI", 0x00004013, 0x0000707F, buildI .xori⟩,
    ⟨"ORI", 0x00006013, 0x0000707F, buildI .ori⟩,
    ⟨"ANDI", 0x00007013, 0x0000707F, buildI .andi⟩,
    ⟨"LW", 0x00002003, 0x0000707F, buildI .lw⟩,
    ⟨"SW", 0x00002023, 0x0000707F, buildS .sw⟩,
    ⟨"BEQ", 0x00000063, 0x0000707F, buildB .beq⟩,
    ⟨"BNE", 0x00001063, 0x0000707F, buildB .bne⟩,
    ⟨"JAL", 0x0000006F, 0x0000007F, buildJ .jal⟩,
    ⟨"HALT", Config.haltWord, 0xFFFFFFFF, fun _ => .halt⟩ ]

/-- The word selects the row (R96). -/
def OpcodeRow.selects (r : OpcodeRow) (w : Word) : Bool := w &&& r.mask == r.pattern

/-- The instruction of the opcode table that a word is, `HALT` among them; every other word is
rejected by name (R96, R97). -/
def decode (w : Word) : Except DecodeReject Instr :=
  match opcodeRows.find? (fun r => r.selects w) with
  | some r => .ok (r.build w)
  | none => .error (.unrecognised w)

/-- `Decode_P` (47_test_profile.md R251), the profile's value of the decoder parameter: `none` for
the end sentinel and for every word it does not recognise. -/
def decodeP (w : Word) : Option Instr :=
  if w = Config.haltWord then none
  else match decode w with
    | .ok i => some i
    | .error _ => none

/-! ### Words and cells (R80, R81; 20_memory.md R53) -/

/-- The word of four cells in address order, most significant first. -/
def wordOfCells (b0 b1 b2 b3 : Byte) : Word := b0 ++ b1 ++ b2 ++ b3

/-- The four cells of a word in address order, most significant first. -/
def cellsOfWord (w : Word) : List Byte :=
  [w.extractLsb' 24 8, w.extractLsb' 16 8, w.extractLsb' 8 8, w.extractLsb' 0 8]

/-- Decoding a list of cells: the instruction of the first four, and the rest. -/
def decodeCells : List Byte → Except DecodeReject (Instr × List Byte)
  | b0 :: b1 :: b2 :: b3 :: rest =>
    match decode (wordOfCells b0 b1 b2 b3) with
    | .ok i => .ok (i, rest)
    | .error e => .error e
  | cells => .error (.tooShort cells.length)

/-- The instruction of a table row's word: bit 0 of `w` is bit 0 of the word, the bits from `nbits`
up are 0; the word is laid out in memory order and given to the decoder. -/
def decodeTableWord (nbits w : Nat) : Option Instr :=
  match decodeCells (cellsOfWord (BitVec.ofNat 32 (w % 2 ^ nbits))) with
  | .ok (i, _) => some i
  | .error _ => none

/-! ### The encoder (R90 to R95) -/

/-- A register index as its 5-bit field. -/
def regBits (r : RegIx) : BitVec 5 := BitVec.ofNat 5 r.val

/-- R-type (R90). -/
def encodeR (funct7 : BitVec 7) (funct3 : BitVec 3) (opcode : BitVec 7) (rd rs1 rs2 : RegIx) : Word :=
  funct7 ++ regBits rs2 ++ regBits rs1 ++ funct3 ++ regBits rd ++ opcode

/-- I-type (R91). -/
def encodeI (funct3 : BitVec 3) (opcode : BitVec 7) (rd rs1 : RegIx) (imm : Int) : Word :=
  BitVec.ofInt 12 imm ++ regBits rs1 ++ funct3 ++ regBits rd ++ opcode

/-- S-type (R92), over the 12 bits of the immediate. -/
def encodeS (funct3 : BitVec 3) (opcode : BitVec 7) (rs1 rs2 : RegIx) (imm : BitVec 12) : Word :=
  imm.extractLsb' 5 7 ++ regBits rs2 ++ regBits rs1 ++ funct3 ++ imm.extractLsb' 0 5 ++ opcode

/-- B-type (R93), over the 13 bits of the immediate; its bit 0 is not encoded. -/
def encodeB (funct3 : BitVec 3) (opcode : BitVec 7) (rs1 rs2 : RegIx) (imm : BitVec 13) : Word :=
  imm.extractLsb' 12 1 ++ imm.extractLsb' 5 6 ++ regBits rs2 ++ regBits rs1 ++ funct3 ++
    imm.extractLsb' 1 4 ++ imm.extractLsb' 11 1 ++ opcode

/-- J-type (R94), over the 21 bits of the immediate; its bit 0 is not encoded. -/
def encodeJ (opcode : BitVec 7) (rd : RegIx) (imm : BitVec 21) : Word :=
  imm.extractLsb' 20 1 ++ imm.extractLsb' 1 10 ++ imm.extractLsb' 11 1 ++ imm.extractLsb' 12 8 ++
    regBits rd ++ opcode

/-- The word of an instruction, from the formats and codes of R90 to R96. -/
def encode : Instr → Word
  | .add rd rs1 rs2 => encodeR 0b0000000 0b000 0b0110011 rd rs1 rs2
  | .sub rd rs1 rs2 => encodeR 0b0100000 0b000 0b0110011 rd rs1 rs2
  | .xor rd rs1 rs2 => encodeR 0b0000000 0b100 0b0110011 rd rs1 rs2
  | .or rd rs1 rs2 => encodeR 0b0000000 0b110 0b0110011 rd rs1 rs2
  | .and rd rs1 rs2 => encodeR 0b0000000 0b111 0b0110011 rd rs1 rs2
  | .addi rd rs1 imm => encodeI 0b000 0b0010011 rd rs1 imm
  | .xori rd rs1 imm => encodeI 0b100 0b0010011 rd rs1 imm
  | .ori rd rs1 imm => encodeI 0b110 0b0010011 rd rs1 imm
  | .andi rd rs1 imm => encodeI 0b111 0b0010011 rd rs1 imm
  | .lw rd rs1 imm => encodeI 0b010 0b0000011 rd rs1 imm
  | .sw rs2 rs1 imm => encodeS 0b010 0b0100011 rs1 rs2 (BitVec.ofInt 12 imm)
  | .beq rs1 rs2 imm => encodeB 0b000 0b1100011 rs1 rs2 (BitVec.ofInt 13 imm)
  | .bne rs1 rs2 imm => encodeB 0b001 0b1100011 rs1 rs2 (BitVec.ofInt 13 imm)
  | .jal rd imm => encodeJ 0b1101111 rd (BitVec.ofInt 21 imm)
  | .halt => Config.haltWord

end Sys2Proof
end

