-- ==== Sys2Proof/Machine/Memory.lean ====
section
/-! DEFINITION. The cells of a memory: reading and writing one cell and one word
(spec/20_memory.md R50 to R64). Bounds are checked by the ports of Ops.lean. -/

namespace Sys2Proof.Machine

/-- What a cell that nothing has set holds: 0 (20_memory.md R64). -/
def unsetCell : Byte := 0

/-- The canonical form: addresses strictly rising and inside the memory, no cell listed that an
unlisted address reads as anyway. Equal memories are then equal data. -/
abbrev Memory.wf (m : Memory) : Prop :=
  m.cells.Pairwise (fun c d => c.1 < d.1) ∧ ∀ c ∈ m.cells, c.1 < m.size ∧ c.2 ≠ unsetCell

/-- The cell listed at an address, or the unset cell. -/
def lookupCell (a : Nat) : List Host.Cell → Byte
  | [] => unsetCell
  | (x, b) :: rest => if x = a then b else lookupCell a rest

/-- The cell at address `a` (`cell_I[a]`, `cell_D[a]` of 00_scope.md R15). -/
def Memory.byte (m : Memory) (a : Nat) : Byte := lookupCell a m.cells

/-- Put one cell in the canonical list: the unset value removes its entry. -/
def setCell (a : Nat) (b : Byte) : List Host.Cell → List Host.Cell
  | [] => if b = unsetCell then [] else [(a, b)]
  | (x, y) :: rest =>
    if x < a then (x, y) :: setCell a b rest
    else if x = a then (if b = unsetCell then rest else (a, b) :: rest)
    else (if b = unsetCell then (x, y) :: rest else (a, b) :: (x, y) :: rest)

/-- Write the cell at address `a`. -/
def Memory.setByte (m : Memory) (a : Nat) (b : Byte) : Memory :=
  { m with cells := setCell a b m.cells }

/-- The word of the four cells from `a`, most significant first (20_memory.md R53). -/
def Memory.wordAt (m : Memory) (a : Nat) : Word :=
  wordOfCells (m.byte a) (m.byte (a + 1)) (m.byte (a + 2)) (m.byte (a + 3))

/-- Write the four cells from `a`, most significant first (20_memory.md R53, 42_data_memory.md R142). -/
def Memory.storeWord (m : Memory) (a : Nat) (w : Word) : Memory :=
  (((m.setByte a (w.extractLsb' 24 8)).setByte (a + 1) (w.extractLsb' 16 8)).setByte (a + 2)
    (w.extractLsb' 8 8)).setByte (a + 3) (w.extractLsb' 0 8)

/-- The cells of a list of bytes laid from address `a`, in canonical form. -/
def cellsFrom (a : Nat) : List Byte → List Host.Cell
  | [] => []
  | b :: bs => if b = unsetCell then cellsFrom (a + 1) bs else (a, b) :: cellsFrom (a + 1) bs

/-- A memory of `size` cells that begins with the given bytes and is unset beyond them. -/
def Memory.ofBytes (size : Nat) (bytes : List Byte) : Memory :=
  { size := size, cells := cellsFrom 0 bytes }

/-- Every cell in address order. -/
def Memory.bytes (m : Memory) : List Byte := (List.range m.size).map m.byte

/-- The four cells of a word placed at `a` by a loader, the memory grown to hold them: how
`State.withFetchWord` places an instruction (log 2). -/
def Memory.placeWord (m : Memory) (a : Nat) (w : Word) : Memory :=
  { m.storeWord a w with size := max m.size (a + 4) }

end Sys2Proof.Machine
end

