-- ==== Sys2Proof/Machine/Ops.lean ====
section
/-! DEFINITION. The ports of the components and the shared operations of the loop: register file
(spec/43_register_file.md), instruction and data memory (spec/41_instruction_memory.md,
spec/42_data_memory.md), latches (spec/44_pipeline_latches.md), traces, and what a model fault
leaves (spec/45_fetch_and_execution_loop.md R217). The block has no exceptions to take or to return
from (spec/60_exceptions.md R300, R309, R310); a fault is its only such event. -/

namespace Sys2Proof.Machine

/-! ### Register file -/

/-- The signed value of register `i`, `x0` read as 0 (43_register_file.md R160). -/
def regValue (rf : Vector Word 32) (i : Nat) : Int :=
  if i = 0 then 0 else signed (rf[i]?.getD 0)

/-- `RF.read(i)`, written `x[i]` (R160). -/
def rfRead (s : State) (i : Int) : Except Fault Int :=
  if i < 0 ∨ 31 < i then .error (.regIndex i)
  else .ok (regValue s.rf i.toNat)

/-- `RF.write(i, v)`, written `x[i] <- v` (R161): the index check, then the `x0` discard, then the
range check. -/
def rfWrite (s : State) (i v : Int) : Except Fault State :=
  if i < 0 ∨ 31 < i then .error (.regIndex i)
  else if i = 0 then .ok s
  else match encode32 v with
    | .error f => .error f
    | .ok b => .ok { s with rf := s.rf.setIfInBounds i.toNat b }

/-- The 32 registers as `RF.read` gives them (R162). -/
def regSnapshot (rf : Vector Word 32) : Vector Word 32 :=
  Vector.ofFn fun i => if i = 0 then 0 else rf[i]

/-- `RF.traceDump(cycle)` (R162, 46_trace_and_metrics.md R231): fresh at cycle 0, appended after. -/
def rfTraceDump (s : State) : State :=
  let record : RfRecord := { cycle := s.cycle, regs := regSnapshot s.rf }
  { s with rfTrace := if s.cycle = 0 then [record] else s.rfTrace ++ [record] }

/-! ### Memories -/

/-- `IMEM.readInstruction(a)`, written `IFetch(a)` (41_instruction_memory.md R121): no wrap, no
alignment check. -/
def iFetch (imem : Memory) (a : Nat) : Except Fault Word :=
  if imem.size < a + 4 then .error (.fetchOutOfRange a)
  else .ok (imem.wordAt a)

/-- The window `[a, a+4)` leaves `[0, DMEM_CAPACITY)` (20_memory.md R58). -/
def outOfBounds (dmem : Memory) (a : Int) : Bool := decide (a < 0 ∨ (dmem.size : Int) < a + 4)

/-- `DMEM.readWord(a)`, written `MemRead(a, 4)` (42_data_memory.md R141). -/
def memRead (s : State) (a : Int) : Except Fault Int :=
  if outOfBounds s.dmem a then .error (.dataOutOfBounds a)
  else .ok (signed (s.dmem.wordAt a.toNat))

/-- `DMEM.writeWord(a, v)`, written `MemWrite(a, 4, v)` (R142): bounds, then range, then the four
cells. -/
def memWrite (s : State) (a v : Int) : Except Fault State :=
  if outOfBounds s.dmem a then .error (.dataOutOfBounds a)
  else match encode32 v with
    | .error f => .error f
    | .ok b => .ok { s with dmem := s.dmem.storeWord a.toNat b }

/-- `DMEM.dump()` (R143). -/
def memDump (s : State) : List Byte := s.dmem.bytes

/-! ### Latches -/

/-- `pc <- v`, that is `nxt.IF.PC <- v` (10_state.md R23): 32 bits unsigned, or the fault `PcRange`. -/
def writeNextPC (s : State) (v : Int) : Except Fault State :=
  if v < 0 ∨ 2 ^ 32 ≤ v then .error (.pcRange v)
  else .ok { s with nxt := { s.nxt with IF := { s.nxt.IF with PC := BitVec.ofNat 32 v.toNat } } }

/-- `nxt.IF.nop <- b` (10_state.md R27). -/
def writeNextNop (s : State) (b : Bool) : State :=
  { s with nxt := { s.nxt with IF := { s.nxt.IF with nop := b } } }

/-- `nxt := cur`, the copy that opens a cycle (44_pipeline_latches.md R187). -/
def copyLatches (s : State) : State := { s with nxt := s.cur }

/-- `cur := nxt`, the commit that closes a cycle (R188). -/
def commitLatches (s : State) : State := { s with cur := s.nxt }

/-- `State.traceDump(cycle)` (46_trace_and_metrics.md R232): a copy of `nxt`. -/
def stTraceDump (s : State) : State :=
  let record : StRecord := { cycle := s.cycle, latches := s.nxt }
  { s with stTrace := if s.cycle = 0 then [record] else s.stTrace ++ [record] }

/-! ### Faults and the cycle counter -/

/-- The state a faulting step leaves: the state it started from with the fault mark set
(45_fetch_and_execution_loop.md R217). -/
def raiseFault (s : State) (f : Fault) : State := { s with fault := some f }

/-- `cycle := cycle + 1` (R208). -/
def countCycle (s : State) : State := { s with cycle := s.cycle + 1 }

end Sys2Proof.Machine
end

