-- ==== Sys2Proof/Machine/Executor.lean ====
section
/-! DEFINITION. The executor contract (spec/45_fetch_and_execution_loop.md R211). What an executor
does for one operation is a program over its ports and nothing else, so that no executor can reach
the instruction memory, `cur`, the counter, the flags, the mark or the traces. -/

namespace Sys2Proof.Machine

/-- A write of one field of `nxt` other than the two of the IF latch (R189, R211); the fields are
those of 44_pipeline_latches.md R182 to R185. -/
inductive LatchWrite where
  | idNop (b : Bool)
  | idInstr (w : Word)
  | exNop (b : Bool)
  | exReadData1 (v : Word)
  | exReadData2 (v : Word)
  | exImm (v : Word)
  | exRs (r : RegIx)
  | exRt (r : RegIx)
  | exWrtRegAddr (r : RegIx)
  | exIsIType (b : Bool)
  | exRdMem (b : Bool)
  | exWrtMem (b : Bool)
  | exAluOp (op : AluOp)
  | exWrtEnable (b : Bool)
  | memNop (b : Bool)
  | memALUresult (v : Word)
  | memStoreData (v : Word)
  | memRs (r : RegIx)
  | memRt (r : RegIx)
  | memWrtRegAddr (r : RegIx)
  | memRdMem (b : Bool)
  | memWrtMem (b : Bool)
  | memWrtEnable (b : Bool)
  | wbNop (b : Bool)
  | wbWrtData (v : Word)
  | wbRs (r : RegIx)
  | wbRt (r : RegIx)
  | wbWrtRegAddr (r : RegIx)
  | wbWrtEnable (b : Bool)
  deriving DecidableEq, Repr

/-- The latches after one field write. -/
def applyLatchWrite (p : PipelineState) : LatchWrite → PipelineState
  | .idNop b => { p with ID := { p.ID with nop := b } }
  | .idInstr w => { p with ID := { p.ID with Instr := w } }
  | .exNop b => { p with EX := { p.EX with nop := b } }
  | .exReadData1 v => { p with EX := { p.EX with Read_data1 := v } }
  | .exReadData2 v => { p with EX := { p.EX with Read_data2 := v } }
  | .exImm v => { p with EX := { p.EX with Imm := v } }
  | .exRs r => { p with EX := { p.EX with Rs := r } }
  | .exRt r => { p with EX := { p.EX with Rt := r } }
  | .exWrtRegAddr r => { p with EX := { p.EX with Wrt_reg_addr := r } }
  | .exIsIType b => { p with EX := { p.EX with is_I_type := b } }
  | .exRdMem b => { p with EX := { p.EX with rd_mem := b } }
  | .exWrtMem b => { p with EX := { p.EX with wrt_mem := b } }
  | .exAluOp op => { p with EX := { p.EX with alu_op := op } }
  | .exWrtEnable b => { p with EX := { p.EX with wrt_enable := b } }
  | .memNop b => { p with MEM := { p.MEM with nop := b } }
  | .memALUresult v => { p with MEM := { p.MEM with ALUresult := v } }
  | .memStoreData v => { p with MEM := { p.MEM with Store_data := v } }
  | .memRs r => { p with MEM := { p.MEM with Rs := r } }
  | .memRt r => { p with MEM := { p.MEM with Rt := r } }
  | .memWrtRegAddr r => { p with MEM := { p.MEM with Wrt_reg_addr := r } }
  | .memRdMem b => { p with MEM := { p.MEM with rd_mem := b } }
  | .memWrtMem b => { p with MEM := { p.MEM with wrt_mem := b } }
  | .memWrtEnable b => { p with MEM := { p.MEM with wrt_enable := b } }
  | .wbNop b => { p with WB := { p.WB with nop := b } }
  | .wbWrtData v => { p with WB := { p.WB with Wrt_data := v } }
  | .wbRs r => { p with WB := { p.WB with Rs := r } }
  | .wbRt r => { p with WB := { p.WB with Rt := r } }
  | .wbWrtRegAddr r => { p with WB := { p.WB with Wrt_reg_addr := r } }
  | .wbWrtEnable b => { p with WB := { p.WB with wrt_enable := b } }

/-- A write of one field of `nxt` (R189). -/
def writeLatch (s : State) (w : LatchWrite) : State := { s with nxt := applyLatchWrite s.nxt w }

/-- The port calls of one operation, in the order the executor makes them (R211). A read hands its
value to the rest of the program; `fail` is a fault of the executor's own, `misaligned` the one
fault of the test profile. -/
inductive PortProgram where
  | done
  | fail (reason : String)
  | misaligned (target : Nat)
  | readReg (i : Int) (rest : Int → PortProgram)
  | writeReg (i v : Int) (rest : PortProgram)
  | readMem (a : Int) (rest : Int → PortProgram)
  | writeMem (a v : Int) (rest : PortProgram)
  | readCur (rest : PipelineState → PortProgram)
  | writeNop (b : Bool) (rest : PortProgram)
  | writePC (v : Int) (rest : PortProgram)
  | writeField (w : LatchWrite) (rest : PortProgram)

/-- The effect of the port calls, each seeing the earlier ones (20_memory.md R65,
70_reset_and_hazards.md R339); the first fault raised ends them (60_exceptions.md R306). -/
def runPorts : PortProgram → State → Host.Outcome State Fault Refusal
  | .done, s => .next s
  | .fail reason, _ => .fault (.executorFault reason)
  | .misaligned t, _ => .fault (.misalignedTarget t)
  | .readReg i rest, s =>
    match rfRead s i with
    | .ok v => runPorts (rest v) s
    | .error f => .fault f
  | .writeReg i v rest, s =>
    match rfWrite s i v with
    | .ok t => runPorts rest t
    | .error f => .fault f
  | .readMem a rest, s =>
    match memRead s a with
    | .ok v => runPorts (rest v) s
    | .error f => .fault f
  | .writeMem a v rest, s =>
    match memWrite s a v with
    | .ok t => runPorts rest t
    | .error f => .fault f
  | .readCur rest, s => runPorts (rest s.cur) s
  | .writeNop b rest, s => runPorts rest (writeNextNop s b)
  | .writePC v rest, s =>
    match writeNextPC s v with
    | .ok t => runPorts rest t
    | .error f => .fault f
  | .writeField w rest, s => runPorts rest (writeLatch s w)

end Sys2Proof.Machine
end

