-- ==== Sys2Proof/Machine/Flags.lean ====
section
/-! DEFINITION. The flags of the block: `halted`, the IF latch's `nop`, the fault mark, and the
branch conditions, which exist only inside the executor (spec/10_state.md R25 to R27, R31;
spec/45_fetch_and_execution_loop.md R201, R203, R205). -/

namespace Sys2Proof.Machine

/-- A step is taken exactly from a state that is neither halted nor faulted (R201). -/
def enabled (s : State) : Bool := !s.halted && s.fault.isNone

/-- Why a state has no step, if it has none (R201). -/
def noStepReason (s : State) : Option Refusal :=
  if s.fault.isSome then some .noStepWhenFaulted
  else if s.halted then some .noStepWhenHalted
  else none

/-- `halted := true` (R25; the primitive `halt` of 00_scope.md R15). -/
def setHalted (s : State) : State := { s with halted := true }

/-- Step 1 of the cycle: a bubble in the IF latch marks the run halted (R203). -/
def ifNopCheck (s : State) : State := if s.cur.IF.nop then setHalted s else s

/-- The condition of `BEQ` (R264). -/
def equalCondition (a b : Int) : Bool := decide (a = b)

/-- The condition of `BNE` (R265). -/
def unequalCondition (a b : Int) : Bool := decide (a ≠ b)

/-- A run has ended: halted, with no fault (R216). -/
def ended (s : State) : Bool := s.halted && s.fault.isNone

end Sys2Proof.Machine
end

