-- ==== Sys2Proof/Machine/Operands.lean ====
section
/-! DEFINITION. What the test profile computes from operands: wrapped sums, bitwise results,
effective addresses and targets (spec/00_scope.md R14, spec/47_test_profile.md R252 to R266). -/

namespace Sys2Proof.Machine

/-- `wrap32(n)`: the unique `SInt32` congruent to `n` modulo `2^32` (00_scope.md R14). -/
def wrap32 (n : Int) : Int := n.bmod (2 ^ 32)

/-- `bits(v)`: the 32-bit pattern of `v` (R252, 40_codec.md R105). -/
def bitsOf (v : Int) : Word := BitVec.ofInt 32 v

/-- `wrap32(a + b)` (R253, R258). -/
def sumOf (a b : Int) : Int := wrap32 (a + b)

/-- `wrap32(a - b)` (R254). -/
def differenceOf (a b : Int) : Int := wrap32 (a - b)

/-- `signed(bits(a) XOR bits(b))` (R255, R259). -/
def xorOf (a b : Int) : Int := signed (bitsOf a ^^^ bitsOf b)

/-- `signed(bits(a) OR bits(b))` (R256, R260). -/
def orOf (a b : Int) : Int := signed (bitsOf a ||| bitsOf b)

/-- `signed(bits(a) AND bits(b))` (R257, R261). -/
def andOf (a b : Int) : Int := signed (bitsOf a &&& bitsOf b)

/-- The effective address `(x[rs1] + imm) mod 2^32`, unsigned (R262, R263, D27). -/
def effectiveAddress (base imm : Int) : Int := (base + imm) % 2 ^ 32

/-- The default successor `(pc + 4) mod 2^32` (R252). -/
def successorOf (pc : Word) : Nat := (pc.toNat + 4) % 2 ^ 32

/-- The target `(cur.IF.PC + imm) mod 2^32` of a branch or jump (R264 to R266). -/
def targetOf (pc : Word) (imm : Int) : Nat := (((pc.toNat : Int) + imm) % 2 ^ 32).toNat

/-- The link value `wrap32(cur.IF.PC + 4)` (R266). -/
def linkOf (pc : Word) : Int := wrap32 (pc.toNat + 4)

end Sys2Proof.Machine
end

