-- ==== Sys2Proof/Machine/Common.lean ====
section
/-! DEFINITION. The shapes the profile's instructions share (spec/47_test_profile.md R252 to R266),
as programs over the executor's ports. -/

namespace Sys2Proof.Machine

/-- The common part of the profile executor (R252): `nxt.IF.nop <- false`, the default successor,
then the instruction's own work, given `cur.IF.PC`. -/
def withSuccessor (work : Word → PortProgram) : PortProgram :=
  .readCur fun cur =>
    .writeNop false (.writePC (successorOf cur.IF.PC) (work cur.IF.PC))

/-- `x[rd] <- f(x[rs1], x[rs2])`, both reads before the write (R252 to R257). -/
def registerForm (f : Int → Int → Int) (rd rs1 rs2 : RegIx) : PortProgram :=
  withSuccessor fun _ =>
    .readReg rs1.val fun a => .readReg rs2.val fun b => .writeReg rd.val (f a b) .done

/-- `x[rd] <- f(x[rs1], imm)` (R258 to R261). -/
def immediateForm (f : Int → Int → Int) (rd rs1 : RegIx) (imm : Int) : PortProgram :=
  withSuccessor fun _ =>
    .readReg rs1.val fun a => .writeReg rd.val (f a imm) .done

/-- `x[rd] <- MemRead(a, 4)` with `a` the effective address (R262). -/
def loadForm (rd rs1 : RegIx) (imm : Int) : PortProgram :=
  withSuccessor fun _ =>
    .readReg rs1.val fun base =>
      .readMem (effectiveAddress base imm) fun v => .writeReg rd.val v .done

/-- `MemWrite(a, 4, x[rs2])` with `a` the effective address (R263). -/
def storeForm (rs2 rs1 : RegIx) (imm : Int) : PortProgram :=
  withSuccessor fun _ =>
    .readReg rs1.val fun base => .readReg rs2.val fun v =>
      .writeMem (effectiveAddress base imm) v .done

/-- The target check of a transfer, before anything else it does (R264 to R266). -/
def checkTarget (t : Nat) (rest : PortProgram) : PortProgram :=
  if t % 4 = 0 then rest else .misaligned t

/-- A conditional branch: on the condition, to the checked target (R264, R265). -/
def branchForm (cond : Int → Int → Bool) (rs1 rs2 : RegIx) (imm : Int) : PortProgram :=
  withSuccessor fun pc =>
    .readReg rs1.val fun a => .readReg rs2.val fun b =>
      if cond a b then checkTarget (targetOf pc imm) (.writePC (targetOf pc imm) .done) else .done

/-- A jump with link: the target check, the link write, the jump (R266). -/
def jumpForm (rd : RegIx) (imm : Int) : PortProgram :=
  withSuccessor fun pc =>
    checkTarget (targetOf pc imm)
      (.writeReg rd.val (linkOf pc) (.writePC (targetOf pc imm) .done))

end Sys2Proof.Machine
end

