-- ==== Sys2Proof/Machine/Control.lean ====
section
/-! DEFINITION. Control transfer and the halt word (spec/47_test_profile.md R264 to R267). -/

namespace Sys2Proof.Machine

/-- `BEQ` (R264). -/
def execBeq (rs1 rs2 : RegIx) (imm : Int) (s : State) : Host.Outcome State Fault Refusal :=
  runPorts (branchForm equalCondition rs1 rs2 imm) s

/-- `BNE` (R265). -/
def execBne (rs1 rs2 : RegIx) (imm : Int) (s : State) : Host.Outcome State Fault Refusal :=
  runPorts (branchForm unequalCondition rs1 rs2 imm) s

/-- `JAL` (R266). -/
def execJal (rd : RegIx) (imm : Int) (s : State) : Host.Outcome State Fault Refusal :=
  runPorts (jumpForm rd imm) s

/-- `HALT` (R267): it decodes to no operation, so the loop sets `halted` and the executor is
skipped (45_fetch_and_execution_loop.md R205). Log 6. -/
def execHalt (s : State) : Host.Outcome State Fault Refusal :=
  .next (setHalted s)

end Sys2Proof.Machine
end

