-- ==== Sys2Proof/Machine/LoadStore.lean ====
section
/-! DEFINITION. The load and the store (spec/47_test_profile.md R262, R263). -/

namespace Sys2Proof.Machine

/-- `LW` (R262). -/
def execLw (rd rs1 : RegIx) (imm : Int) (s : State) : Host.Outcome State Fault Refusal :=
  runPorts (loadForm rd rs1 imm) s

/-- `SW` (R263). -/
def execSw (rs2 rs1 : RegIx) (imm : Int) (s : State) : Host.Outcome State Fault Refusal :=
  runPorts (storeForm rs2 rs1 imm) s

end Sys2Proof.Machine
end

