-- ==== Sys2Proof/Machine/RegImm.lean ====
section
/-! DEFINITION. Register-immediate arithmetic and logic (spec/47_test_profile.md R258 to R261). -/

namespace Sys2Proof.Machine

/-- `ADDI` (R258). -/
def execAddi (rd rs1 : RegIx) (imm : Int) (s : State) : Host.Outcome State Fault Refusal :=
  runPorts (immediateForm sumOf rd rs1 imm) s

/-- `XORI` (R259). -/
def execXori (rd rs1 : RegIx) (imm : Int) (s : State) : Host.Outcome State Fault Refusal :=
  runPorts (immediateForm xorOf rd rs1 imm) s

/-- `ORI` (R260). -/
def execOri (rd rs1 : RegIx) (imm : Int) (s : State) : Host.Outcome State Fault Refusal :=
  runPorts (immediateForm orOf rd rs1 imm) s

/-- `ANDI` (R261). -/
def execAndi (rd rs1 : RegIx) (imm : Int) (s : State) : Host.Outcome State Fault Refusal :=
  runPorts (immediateForm andOf rd rs1 imm) s

end Sys2Proof.Machine
end

