-- ==== Sys2Proof/Machine/RegReg.lean ====
section
/-! DEFINITION. Register-register arithmetic and logic (spec/47_test_profile.md R253 to R257). -/

namespace Sys2Proof.Machine

/-- `ADD` (R253). -/
def execAdd (rd rs1 rs2 : RegIx) (s : State) : Host.Outcome State Fault Refusal :=
  runPorts (registerForm sumOf rd rs1 rs2) s

/-- `SUB` (R254). -/
def execSub (rd rs1 rs2 : RegIx) (s : State) : Host.Outcome State Fault Refusal :=
  runPorts (registerForm differenceOf rd rs1 rs2) s

/-- `XOR` (R255). -/
def execXor (rd rs1 rs2 : RegIx) (s : State) : Host.Outcome State Fault Refusal :=
  runPorts (registerForm xorOf rd rs1 rs2) s

/-- `OR` (R256). -/
def execOr (rd rs1 rs2 : RegIx) (s : State) : Host.Outcome State Fault Refusal :=
  runPorts (registerForm orOf rd rs1 rs2) s

/-- `AND` (R257). -/
def execAnd (rd rs1 rs2 : RegIx) (s : State) : Host.Outcome State Fault Refusal :=
  runPorts (registerForm andOf rd rs1 rs2) s

end Sys2Proof.Machine
end

