-- ==== Sys2Proof/Machine/Loop.lean ====
section
/-! DEFINITION. The execution loop (spec/45_fetch_and_execution_loop.md R200 to R218), for any
decoder and any executor: the cycle, the outcome of a faulting step, the run. -/

namespace Sys2Proof.Machine

/-- The two external collaborators, parameters of the block (00_scope.md R5, R11): the decoder
contract of R210 with its end sentinel (30_encoding.md R85), and the executor contract of R211. -/
structure Collaborators (Op : Type) where
  haltWord : Word
  decode : Word → Option Op
  execute : Op → Bool → PortProgram
  sentinel : decode haltWord = none

/-- Steps 0 and 1 of the cycle (R202, R203). -/
def openCycle (s : State) : State := ifNopCheck (copyLatches s)

/-- Steps 5 and 6 of the cycle (R207, R208). -/
def closeCycle (s : State) : State := countCycle (commitLatches (stTraceDump (rfTraceDump s)))

/-- The end of a cycle whose steps 3 and 4 gave an outcome: it closes where they completed (R209). -/
def closeOutcome : Host.Outcome State Fault Refusal → Host.Outcome State Fault Refusal
  | .next t => .next (closeCycle t)
  | .fault f => .fault f
  | .refused r => .refused r

/-- The whole cycle (R209), `act` being its steps 3 and 4 on the fetched word: refused where the
state has no step (R201), a fault where one is raised (R217). -/
def cycleWith (act : Word → State → Host.Outcome State Fault Refusal) (s : State) :
    Host.Outcome State Fault Refusal :=
  match noStepReason s with
  | some r => .refused r
  | none =>
    match iFetch (openCycle s).imem (openCycle s).cur.IF.PC.toNat with
    | .error f => .fault f
    | .ok w => closeOutcome (act w (openCycle s))

/-- Steps 3 and 4 with a decoder and an executor (R205, R206): `none` halts and skips the executor. -/
def decodeAndExecute {Op : Type} (c : Collaborators Op) (branchFlag : Bool) (w : Word) (s : State) :
    Host.Outcome State Fault Refusal :=
  match c.decode w with
  | none => .next (setHalted s)
  | some op => runPorts (c.execute op branchFlag) s

/-- `step(s, branchFlag)` of R209 for any collaborators; `branchFlag` is the step's draw (R212). -/
def blockStep {Op : Type} (c : Collaborators Op) (branchFlag : Bool) (s : State) :
    Host.Outcome State Fault Refusal :=
  cycleWith (decodeAndExecute c branchFlag) s

/-- The state a step's outcome stands for: after a fault, the state the step started from with the
mark set (R217); a state that has no step stays (R215, R307). -/
def settle (s : State) : Host.Outcome State Fault Refusal → State
  | .next t => t
  | .fault f => raiseFault s f
  | .refused _ => s

/-- At most `n` cycles of the run (R213), the first with draw `draws k`: it stops in a state that is
halted or faulted. -/
def blockRun {Op : Type} (c : Collaborators Op) (draws : Nat → Bool) : Nat → Nat → State → State
  | _, 0, s => s
  | k, n + 1, s =>
    if enabled s then blockRun c draws (k + 1) n (settle s (blockStep c (draws k) s)) else s

end Sys2Proof.Machine
end

