-- ==== Sys2Proof/Machine/Step.lean ====
section
/-! DEFINITION. The step of the machine: one cycle (spec/45_fetch_and_execution_loop.md R209) with
the opcode table's instructions in its steps 3 and 4, and how a test places an instruction. -/

namespace Sys2Proof.Machine

/-- Steps 3 and 4 (R205, R206): the decoded instruction runs; a word in no row halts
(spec/30_encoding.md R87). The profile ignores the draw (spec/47_test_profile.md R252). -/
def decodeAndDispatch (_branchFlag : Bool) (w : Word) (s : State) :
    Host.Outcome State Fault Refusal :=
  match decode w with
  | .ok i => exec i s
  | .error _ => .next (setHalted s)

/-- One cycle (R209); its draw of `branchFlag` is the free value of the cycle (R212, log 3). -/
def step (s : State) : Host.Outcome State Fault Refusal :=
  cycleWith (decodeAndDispatch (Config.branchFlag s.cycle)) s

/-- `s` with a table row's word placed in instruction memory where the next fetch reads (`cur.IF.PC`),
the image grown to hold it; the bits from `nbits` up are 0. Log 2. -/
def State.withFetchWord (s : State) (nbits w : Nat) : State :=
  { s with imem := s.imem.placeWord s.cur.IF.PC.toNat (BitVec.ofNat 32 (w % 2 ^ nbits)) }

end Sys2Proof.Machine
end

