-- ==== Sys2Proof/WellFormed.lean ====
section
/-! DEFINITION. Which instructions an encoding exists for: the operand ranges of
spec/30_encoding.md R95 and spec/47_test_profile.md R253 to R267. Register indices are in range by
their type. -/

namespace Sys2Proof

/-- `imm_I` and `imm_S` lie in `[-2048, 2047]` (R95). -/
def wfImm12 (imm : Int) : Bool := decide (-2048 ≤ imm ∧ imm ≤ 2047)

/-- `imm_B` is even and lies in `[-4096, 4094]` (R95). -/
def wfImmB (imm : Int) : Bool := decide (-4096 ≤ imm ∧ imm ≤ 4094 ∧ imm % 2 = 0)

/-- `imm_J` is even and lies in `[-2^20, 2^20 - 2]` (R95). -/
def wfImmJ (imm : Int) : Bool := decide (-1048576 ≤ imm ∧ imm ≤ 1048574 ∧ imm % 2 = 0)

/-- The instruction has operands its encoding can hold. -/
def Instr.wf : Instr → Bool
  | .add _ _ _ => true
  | .sub _ _ _ => true
  | .xor _ _ _ => true
  | .or _ _ _ => true
  | .and _ _ _ => true
  | .addi _ _ imm => wfImm12 imm
  | .xori _ _ imm => wfImm12 imm
  | .ori _ _ imm => wfImm12 imm
  | .andi _ _ imm => wfImm12 imm
  | .lw _ _ imm => wfImm12 imm
  | .sw _ _ imm => wfImm12 imm
  | .beq _ _ imm => wfImmB imm
  | .bne _ _ imm => wfImmB imm
  | .jal _ imm => wfImmJ imm
  | .halt => true

end Sys2Proof
end

