-- ==== Sys2Proof/Machine/Assembly.lean ====
section
/-! DEFINITION. Names and spellings: the register names of spec/10_state.md R22, the assembler
syntax and the pseudo-instructions of spec/47_test_profile.md R268 and R269. No rule of the block
depends on them. -/

namespace Sys2Proof.Machine

/-- The ABI names of `x0` to `x31` in order (10_state.md R22). -/
def abiNames : List String :=
  ["zero", "ra", "sp", "gp", "tp", "t0", "t1", "t2", "s0", "s1", "a0", "a1", "a2", "a3", "a4", "a5"] ++
  ["a6", "a7", "s2", "s3", "s4", "s5", "s6", "s7", "s8", "s9", "s10", "s11", "t3", "t4", "t5", "t6"]

/-- The spec's own name of a register (10_state.md R22). -/
def registerName (r : RegIx) : String := "x" ++ toString r.val

/-- The ABI name of a register (10_state.md R22). -/
def abiName (r : RegIx) : String := abiNames.getD r.val ""

/-- A mnemonic and operands separated by commas (R268). -/
def spelled (mnemonic : String) (operands : List String) : String :=
  mnemonic ++ " " ++ String.intercalate ", " operands

/-- A memory operand `imm(rs1)` (R268). -/
def memoryOperand (rs1 : RegIx) (imm : Int) : String :=
  toString imm ++ "(" ++ registerName rs1 ++ ")"

/-- The assembler spelling of an instruction (R268); offsets are byte offsets from its own address. -/
def assembly : Instr → String
  | .add rd rs1 rs2 => spelled "add" [registerName rd, registerName rs1, registerName rs2]
  | .sub rd rs1 rs2 => spelled "sub" [registerName rd, registerName rs1, registerName rs2]
  | .xor rd rs1 rs2 => spelled "xor" [registerName rd, registerName rs1, registerName rs2]
  | .or rd rs1 rs2 => spelled "or" [registerName rd, registerName rs1, registerName rs2]
  | .and rd rs1 rs2 => spelled "and" [registerName rd, registerName rs1, registerName rs2]
  | .addi rd rs1 imm => spelled "addi" [registerName rd, registerName rs1, toString imm]
  | .xori rd rs1 imm => spelled "xori" [registerName rd, registerName rs1, toString imm]
  | .ori rd rs1 imm => spelled "ori" [registerName rd, registerName rs1, toString imm]
  | .andi rd rs1 imm => spelled "andi" [registerName rd, registerName rs1, toString imm]
  | .lw rd rs1 imm => spelled "lw" [registerName rd, memoryOperand rs1 imm]
  | .sw rs2 rs1 imm => spelled "sw" [registerName rs2, memoryOperand rs1 imm]
  | .beq rs1 rs2 imm => spelled "beq" [registerName rs1, registerName rs2, toString imm]
  | .bne rs1 rs2 imm => spelled "bne" [registerName rs1, registerName rs2, toString imm]
  | .jal rd imm => spelled "jal" [registerName rd, toString imm]
  | .halt => ".word 0xFFFFFFFF"

/-- The pseudo-instructions the profile can express (R269). -/
inductive Pseudo where
  | nop
  | mv (rd rs : RegIx)
  | li (rd : RegIx) (imm : Int)
  | not (rd rs : RegIx)
  | neg (rd rs : RegIx)
  | j (off : Int)
  | jal (off : Int)
  | beqz (rs : RegIx) (off : Int)
  | bnez (rs : RegIx) (off : Int)
  deriving DecidableEq, Repr

/-- The expansion of a pseudo-instruction (R269). -/
def expandPseudo : Pseudo → Instr
  | .nop => .addi 0 0 0
  | .mv rd rs => .addi rd rs 0
  | .li rd imm => .addi rd 0 imm
  | .not rd rs => .xori rd rs (-1)
  | .neg rd rs => .sub rd 0 rs
  | .j off => .jal 0 off
  | .jal off => .jal 1 off
  | .beqz rs off => .beq rs 0 off
  | .bnez rs off => .bne rs 0 off

/-! ### Reading a line (47_test_profile.md R268) -/

/-- The value of a digit, decimal or hexadecimal. -/
def digitOf (c : Char) : Option Nat :=
  if '0' ≤ c ∧ c ≤ '9' then some (c.toNat - 48)
  else if 'a' ≤ c ∧ c ≤ 'f' then some (c.toNat - 87)
  else none

/-- The digits of a numeral in a base, after those read so far. -/
def numeralFrom (base sofar : Nat) : List Char → Option Nat
  | [] => some sofar
  | c :: cs =>
    match digitOf c with
    | some d => if d < base then numeralFrom base (base * sofar + d) cs else none
    | none => none

/-- A numeral: decimal, or hexadecimal after `0x` (R268). -/
def readNatural : List Char → Option Nat
  | [] => none
  | ['0', 'x'] => none
  | '0' :: 'x' :: cs => numeralFrom 16 0 cs
  | cs => numeralFrom 10 0 cs

/-- An immediate: a numeral with an optional minus sign (R268). -/
def readImmediate : List Char → Option Int
  | '-' :: cs => (readNatural cs).map fun n => -(n : Int)
  | cs => (readNatural cs).map fun n => (n : Int)

/-- A register by its index name or its ABI name, `fp` being `s0` (10_state.md R22). -/
def readRegister (cs : List Char) : Option RegIx :=
  if cs = ['f', 'p'] then some 8
  else (List.finRange 32).find? fun r => cs = (registerName r).toList ∨ cs = (abiName r).toList

/-- A memory operand `imm(rs1)` (R268). -/
def readMemoryOperand (cs : List Char) : Option (RegIx × Int) :=
  match cs.span (· ≠ '(') with
  | (offset, '(' :: base) =>
    if base.getLast? = some ')' then do
      let imm ← readImmediate offset
      let rs1 ← readRegister base.dropLast
      some (rs1, imm)
    else none
  | _ => none

/-- A text without the spaces at its two ends. -/
def trimSpaces (cs : List Char) : List Char :=
  ((cs.dropWhile (· = ' ')).reverse.dropWhile (· = ' ')).reverse

/-- The instruction of a mnemonic and its operands, an expansion of R269 included. -/
def readOperands (mnemonic : String) (operands : List (List Char)) : Option Instr :=
  let reg3 (mk : RegIx → RegIx → RegIx → Instr) : Option Instr :=
    match operands with
    | [a, b, c] => do some (mk (← readRegister a) (← readRegister b) (← readRegister c))
    | _ => none
  let reg2 (mk : RegIx → RegIx → Int → Instr) : Option Instr :=
    match operands with
    | [a, b, c] => do some (mk (← readRegister a) (← readRegister b) (← readImmediate c))
    | _ => none
  let memory (mk : RegIx → RegIx → Int → Instr) : Option Instr :=
    match operands with
    | [a, m] => do
      let (rs1, imm) ← readMemoryOperand m
      some (mk (← readRegister a) rs1 imm)
    | _ => none
  let move (mk : RegIx → RegIx → Pseudo) : Option Instr :=
    match operands with
    | [a, b] => do some (expandPseudo (mk (← readRegister a) (← readRegister b)))
    | _ => none
  let transfer (mk : RegIx → Int → Pseudo) : Option Instr :=
    match operands with
    | [a, b] => do some (expandPseudo (mk (← readRegister a) (← readImmediate b)))
    | _ => none
  match mnemonic with
  | "add" => reg3 .add
  | "sub" => reg3 .sub
  | "xor" => reg3 .xor
  | "or" => reg3 .or
  | "and" => reg3 .and
  | "addi" => reg2 .addi
  | "xori" => reg2 .xori
  | "ori" => reg2 .ori
  | "andi" => reg2 .andi
  | "lw" => memory .lw
  | "sw" => memory .sw
  | "beq" => reg2 .beq
  | "bne" => reg2 .bne
  | "jal" =>
    match operands with
    | [off] => do some (expandPseudo (.jal (← readImmediate off)))
    | [a, off] => do some (.jal (← readRegister a) (← readImmediate off))
    | _ => none
  | "nop" => if operands = [] then some (expandPseudo .nop) else none
  | "mv" => move .mv
  | "not" => move .not
  | "neg" => move .neg
  | "li" => transfer .li
  | "beqz" => transfer .beqz
  | "bnez" => transfer .bnez
  | "j" =>
    match operands with
    | [off] => do some (expandPseudo (.j (← readImmediate off)))
    | _ => none
  | ".word" =>
    match operands with
    | [w] => if readNatural w = some 0xFFFFFFFF then some .halt else none
    | _ => none
  | _ => none

/-- The instruction an assembler line spells, in lower or upper case, offsets in bytes; none where
it spells none or an operand is out of the range of its field (R268, R269). Labels are not read
(log 31). -/
def readAssembly (text : List Char) : Option Instr :=
  let (mnemonic, rest) := (trimSpaces (text.map Char.toLower)).span (· ≠ ' ')
  let operands := if trimSpaces rest = [] then [] else (rest.splitOn ',').map trimSpaces
  match readOperands (String.ofList mnemonic) operands with
  | some i => if i.wf then some i else none
  | none => none

end Sys2Proof.Machine
end

