-- ==== Sys2Proof/Machine/Load.lean ====
section
/-! DEFINITION. Images and the startup sequence (spec/30_encoding.md R82, R83;
spec/41_instruction_memory.md R120; spec/42_data_memory.md R140; spec/60_exceptions.md R302;
spec/70_reset_and_hazards.md R330). -/

namespace Sys2Proof.Machine

/-- Which of the two images an error is about. -/
inductive ImageKind where
  | instruction
  | data
  deriving DecidableEq, Repr

/-- `ConfigurationError` (60_exceptions.md R302): raised before cycle 0, no reset state exists. -/
inductive ConfigurationError where
  /-- the image file is missing (R120, R140) -/
  | missingImage (which : ImageKind)
  /-- line `k` is not exactly 8 characters of `'0'` and `'1'` (30_encoding.md R83) -/
  | malformedLine (which : ImageKind) (k : Nat)
  /-- the data image has more lines than the capacity (42_data_memory.md R140) -/
  | imageTooLarge (lines : Nat)
  deriving DecidableEq, Repr

/-- The text of an image file. -/
abbrev ImageText := List Char

/-- The pieces of a text between its newlines; there is always a last one. -/
def splitAtNewlines : ImageText → List (List Char)
  | [] => [[]]
  | c :: cs =>
    if c = '\n' then [] :: splitAtNewlines cs
    else match splitAtNewlines cs with
      | [] => [[c]]
      | piece :: pieces => (c :: piece) :: pieces

/-- A line ended by a newline, without the carriage return of a `"\r\n"` terminator (R83). -/
def dropCarriageReturn (line : List Char) : List Char :=
  if line.getLast? = some '\r' then line.dropLast else line

/-- The lines of an image (R83): each without its terminator; the empty piece that a final newline
leaves is no line. -/
def imageLines (text : ImageText) : List (List Char) :=
  let pieces := splitAtNewlines text
  let terminated := pieces.dropLast.map dropCarriageReturn
  match pieces.getLast? with
  | none => terminated
  | some last => if last = [] then terminated else terminated ++ [last]

/-- A valid line: exactly 8 characters, each `'0'` or `'1'` (R83). -/
def validLine (line : List Char) : Bool :=
  line.length == 8 && line.all isBinaryDigit

/-- The cell a valid line denotes, its first character bit 7 (R82, 00_scope.md R13). -/
def cellOfLine (line : List Char) : Byte :=
  BitVec.ofNat 8 (unsignedOf line)

/-- The cells of the lines from line `k` on, or the first malformed line (R120, R140). -/
def cellsOfLines (which : ImageKind) (k : Nat) : List (List Char) → Except ConfigurationError (List Byte)
  | [] => .ok []
  | line :: rest =>
    if validLine line then
      match cellsOfLines which (k + 1) rest with
      | .ok cells => .ok (cellOfLine line :: cells)
      | .error e => .error e
    else .error (.malformedLine which k)

/-- The cells of an image file, `none` standing for a file that does not exist. -/
def readImage (which : ImageKind) : Option ImageText → Except ConfigurationError (List Byte)
  | none => .error (.missingImage which)
  | some text => cellsOfLines which 0 (imageLines text)

/-- `IMEM.load(image)` (41_instruction_memory.md R120): the image is not padded. -/
def imemLoad (image : Option ImageText) : Except ConfigurationError Memory :=
  match readImage .instruction image with
  | .error e => .error e
  | .ok cells => .ok (Memory.ofBytes cells.length cells)

/-- `DMEM.load(image)` (42_data_memory.md R140): zero-padded to the capacity, refused beyond it. -/
def dmemLoad (capacity : Nat) (image : Option ImageText) : Except ConfigurationError Memory :=
  match readImage .data image with
  | .error e => .error e
  | .ok cells =>
    if capacity < cells.length then .error (.imageTooLarge cells.length)
    else .ok (Memory.ofBytes capacity cells)

/-- The startup sequence (70_reset_and_hazards.md R330, steps 2 to 5): instruction image, data
image, then the reset state of 10_state.md R40. -/
def startup (capacity : Nat) (instructionImage dataImage : Option ImageText) :
    Except ConfigurationError State :=
  match imemLoad instructionImage with
  | .error e => .error e
  | .ok imem =>
    match dmemLoad capacity dataImage with
    | .error e => .error e
    | .ok dmem => .ok (State.resetWith imem dmem)

end Sys2Proof.Machine
end

