-- ==== Sys2Proof/Machine/Output.lean ====
section
/-! DEFINITION. What the host takes from the block: the final data dump, the performance report and
the rendering of values (spec/46_trace_and_metrics.md R230 to R241). -/

namespace Sys2Proof.Machine

/-- The integer nearest to `n / d`, a tie going to the even one (R236). -/
def roundHalfEven (n d : Nat) : Nat :=
  let q := n / d
  let r := n % d
  if 2 * r < d then q
  else if d < 2 * r then q + 1
  else if q % 2 = 0 then q else q + 1

/-- `IPC` in units of `10^-6`: `round6((C - 1) / C)` (R236). -/
def ipcMillionths (c : Nat) : Nat := roundHalfEven ((c - 1) * 1000000) c

/-- `IPC` (R236), exact. -/
def ipcOf (c : Nat) : Rat := (ipcMillionths c : Rat) / 1000000

/-- `CPI = 1 / IPC` when `IPC > 0`, else none (R237). -/
def cpiOf (c : Nat) : Option Rat :=
  if ipcMillionths c = 0 then none else some (1000000 / (ipcMillionths c : Rat))

/-- The inferred instruction count `ceil(C × IPC)` (R238); not the executed count (R239). -/
def inferredCount (c : Nat) : Nat := (c * ipcMillionths c + 999999) / 1000000

/-- The performance report (R230, R235 to R238). -/
structure Report where
  cycles : Nat
  ipc : Rat
  cpi : Option Rat
  instructions : Nat
  deriving DecidableEq, Repr

/-- The report of a cycle count (R235 to R238). -/
def reportOf (c : Nat) : Report :=
  { cycles := c, ipc := ipcOf c, cpi := cpiOf c, instructions := inferredCount c }

/-- The report, taken only at the end of a run (45_fetch_and_execution_loop.md R216). -/
def finalReport (s : State) : Option Report := if ended s then some (reportOf s.cycle) else none

/-- The data dump, taken only at the end of a run (R234). -/
def finalDump (s : State) : Option (List Byte) := if ended s then some (memDump s) else none

/-- A register rendered as bits (R240): `Codec.encode(v, 32)`. -/
def renderRegister (v : Int) : Except Fault BinString := codecEncode v 32

/-- A cell rendered as an image line's 8 characters (R240, 30_encoding.md R82). -/
def renderCell (b : Byte) : BinString := stringOfBits b

/-- The dump as an image: one cell per line (42_data_memory.md R143). -/
def renderDump (cells : List Byte) : List Char :=
  cells.flatMap fun b => renderCell b ++ ['\n']

/-- `TraceFormat`, the open parameter of R240: the text of each record and of the report. -/
structure TraceFormat where
  rfRecord : RfRecord → List Char
  stRecord : StRecord → List Char
  report : Report → List Char

/-- The four outputs of a run (R230) in a given text layout: register trace, pipeline-state trace,
and at the end of a run the dump and the report. -/
structure OutputText where
  registerTrace : List Char
  stateTrace : List Char
  dump : Option (List Char)
  report : Option (List Char)
  deriving DecidableEq, Repr

/-- The outputs of a state as text (R230, R240). They feed back into nothing (R241). -/
def renderOutputs (layout : TraceFormat) (s : State) : OutputText where
  registerTrace := s.rfTrace.flatMap layout.rfRecord
  stateTrace := s.stTrace.flatMap layout.stRecord
  dump := (finalDump s).map renderDump
  report := (finalReport s).map layout.report

end Sys2Proof.Machine
end

