-- ==== Sys2Proof/Machine/Profile.lean ====
section
/-! DEFINITION. The test profile as one value of the block's parameters
(spec/47_test_profile.md R250 to R252). -/

namespace Sys2Proof.Machine

/-- `Execute_P` (R252): a program over the ports for every operation; it ignores `branchFlag`.
`HALT` is never executed (R267), so its program makes no call. -/
def executeP (i : Instr) (_branchFlag : Bool) : PortProgram :=
  match i with
  | .add rd rs1 rs2 => registerForm sumOf rd rs1 rs2
  | .sub rd rs1 rs2 => registerForm differenceOf rd rs1 rs2
  | .xor rd rs1 rs2 => registerForm xorOf rd rs1 rs2
  | .or rd rs1 rs2 => registerForm orOf rd rs1 rs2
  | .and rd rs1 rs2 => registerForm andOf rd rs1 rs2
  | .addi rd rs1 imm => immediateForm sumOf rd rs1 imm
  | .xori rd rs1 imm => immediateForm xorOf rd rs1 imm
  | .ori rd rs1 imm => immediateForm orOf rd rs1 imm
  | .andi rd rs1 imm => immediateForm andOf rd rs1 imm
  | .lw rd rs1 imm => loadForm rd rs1 imm
  | .sw rs2 rs1 imm => storeForm rs2 rs1 imm
  | .beq rs1 rs2 imm => branchForm equalCondition rs1 rs2 imm
  | .bne rs1 rs2 imm => branchForm unequalCondition rs1 rs2 imm
  | .jal rd imm => jumpForm rd imm
  | .halt => .done

/-- The profile `(Decode_P, Execute_P)` (R250). -/
def profile : Collaborators Instr where
  haltWord := Config.haltWord
  decode := decodeP
  execute := executeP
  sentinel := by simp [decodeP]

end Sys2Proof.Machine
end

