-- ==== Sys2Proof/Machine/Run.lean ====
section
/-! DEFINITION. Runs of the machine (spec/45_fetch_and_execution_loop.md R213 to R217) and the
variants of the block (spec/44_pipeline_latches.md R190). -/

namespace Sys2Proof.Machine

/-- The step of a variant: the single-stage block has one, the five-stage variant is refused by
name (R190; 70_reset_and_hazards.md R338). -/
def variantStep : Variant → State → Host.Outcome State Fault Refusal
  | .singleStage, s => step s
  | .fiveStage, _ => .refused .fiveStageVariant

/-- At most `n` cycles of the run (R213); a faulting step leaves its state with the mark set (R217). -/
def runCycles : Nat → State → State
  | 0, s => s
  | n + 1, s => if enabled s then runCycles n (settle s (step s)) else s

end Sys2Proof.Machine
end

