-- ==== Sys2Proof/Safety.lean ====
section
/-! DEFINITION. What claims call a sound state: the facts that hold between cycles of a run. -/

namespace Sys2Proof.Machine

/-- Slot 0 of the register file holds 0, as 10_state.md R20 and R21 say. -/
abbrev zeroSlotHeld (s : State) : Prop := s.rf[0] = 0

/-- Both memories are in canonical form. -/
abbrev memoriesCanonical (s : State) : Prop := s.imem.wf ∧ s.dmem.wf

/-- Outside a step `nxt = cur` (10_state.md R34, 44_pipeline_latches.md R188). -/
abbrev latchesSettled (s : State) : Prop := s.nxt = s.cur

/-- One record of each trace per completed cycle, numbered from 0 in order (46_trace_and_metrics.md
R233). -/
abbrev tracesNumbered (s : State) : Prop :=
  s.rfTrace.map RfRecord.cycle = List.range s.cycle ∧
    s.stTrace.map StRecord.cycle = List.range s.cycle

/-- The last records show the state as the last cycle left it (R231, R232): the registers and the
latches. -/
abbrev tracesCurrent (s : State) : Prop :=
  0 < s.cycle →
    s.rfTrace.getLast?.map RfRecord.regs = some (regSnapshot s.rf) ∧
      s.stTrace.getLast?.map StRecord.latches = some s.cur

/-- The invariant of the block, for any decoder and executor. -/
abbrev blockInv (s : State) : Prop :=
  zeroSlotHeld s ∧ memoriesCanonical s ∧ latchesSettled s ∧ tracesNumbered s ∧ tracesCurrent s

/-- The program counter is a multiple of 4, which the test profile keeps (20_memory.md R57;
47_test_profile.md R252, R264 to R266). -/
abbrev pcAligned (s : State) : Prop := s.cur.IF.PC.toNat % 4 = 0

/-- Every stage but IF is the bubble it was at reset: the profile writes no other latch field
(47_test_profile.md R252). -/
abbrev laterStagesBubbles (s : State) : Prop :=
  s.cur.IF.nop = false ∧ { s.cur with IF := resetLatches.IF } = resetLatches

/-- The invariant of the block under the test profile. -/
abbrev profileInv (s : State) : Prop := blockInv s ∧ pcAligned s ∧ laterStagesBubbles s

/-- No fault has been raised (R31). -/
abbrev safeState (s : State) : Prop := s.fault = none

end Sys2Proof.Machine
end

