-- ==== Sys2Proof/Certificates/Slice0/Obligations.lean ====
section
/-! DEFINITION. What is claimed of the model, for the provers: the numbered rules of spec/ as
statements over the fixed names. The helpers of the first section say what a statement means by a
register's value, a frame, a closed cycle and the fields of a word, in the statements' own terms. -/

namespace Sys2Proof.Claims

open Sys2Proof.Machine

/-! ### Registers, frames, words -/

/-- The signed value of a register, `x0` being 0 (spec/10_state.md R21). -/
def x (s : State) (r : RegIx) : Int := if r = 0 then 0 else (s.rf[r]).toInt

/-- The state with `nxt.IF` as an instruction leaves it: live, at `pc` modulo `2^32`. -/
def withNextPC (s : State) (pc : Nat) : State :=
  { s with nxt := { s.nxt with IF := { nop := false, PC := BitVec.ofNat 32 pc } } }

/-- `t` is `s` with register `rd` set to `v` (nothing for `x0`) and the next PC `pc`: every other
register, every byte of memory and everything else is as in `s`. -/
def WritesOnly (rd : RegIx) (v : Int) (pc : Nat) (s t : State) : Prop :=
  (∀ r : RegIx, x t r = if r ≠ 0 ∧ r = rd then v else x s r) ∧
    (∀ r : RegIx, r = 0 ∨ r ≠ rd → t.rf[r] = s.rf[r]) ∧
    (∀ a, t.dmem.byte a = s.dmem.byte a) ∧
    t = { withNextPC s pc with rf := t.rf }

/-- The four cells of `m` from `a` hold `b`, most significant first. -/
def HoldsWord (m : Memory) (a : Nat) (b : Word) : Prop :=
  m.byte a = b.extractLsb' 24 8 ∧ m.byte (a + 1) = b.extractLsb' 16 8 ∧
    m.byte (a + 2) = b.extractLsb' 8 8 ∧ m.byte (a + 3) = b.extractLsb' 0 8

/-- The cells of `m'` outside the four from `a` are those of `m`, and the size is the same. -/
def SameOutside (m m' : Memory) (a : Nat) : Prop :=
  (∀ n, n < a ∨ a + 4 ≤ n → m'.byte n = m.byte n) ∧ m'.size = m.size

/-- The four cells of `m` from `a` as one word, the cell at `a` in bits 31 to 24 (20_memory.md R53). -/
def bigEndianWord (m : Memory) (a : Nat) : Word :=
  m.byte a ++ m.byte (a + 1) ++ m.byte (a + 2) ++ m.byte (a + 3)

/-- The register field of `w` whose lowest bit is `lo`. -/
def regAt (w : Word) (lo : Nat) : RegIx := ⟨(w.extractLsb' lo 5).toNat, (w.extractLsb' lo 5).isLt⟩

/-- Bits `hi` down to `lo`. -/
abbrev bits (w : Word) (hi lo : Nat) : BitVec (hi - lo + 1) := w.extractLsb hi lo

def immediateI (w : Word) : Int := ((bits w 31 20).signExtend 32).toInt
def immediateS (w : Word) : Int := ((bits w 31 25 ++ bits w 11 7).signExtend 32).toInt
def immediateB (w : Word) : Int :=
  ((bits w 31 31 ++ bits w 7 7 ++ bits w 30 25 ++ bits w 11 8 ++ 0#1).signExtend 32).toInt
def immediateJ (w : Word) : Int :=
  ((bits w 31 31 ++ bits w 19 12 ++ bits w 20 20 ++ bits w 30 21 ++ 0#1).signExtend 32).toInt

/-! ### The shapes of the instruction rules -/

/-- A register-register rule: its row (mask `0xFE00707F`), and for every operand and state the
result `f` in `rd`, the default successor, nothing else, no fault. -/
def RegRegRule (mk : RegIx → RegIx → RegIx → Instr) (pattern : Word) (f : Int → Int → Int) : Prop :=
  (∀ w : Word, w &&& 0xFE00707F = pattern →
      decodeP w = some (mk (regAt w 7) (regAt w 15) (regAt w 20))) ∧
    ∀ (rd rs1 rs2 : RegIx) (s : State), ∃ t, exec (mk rd rs1 rs2) s = .next t ∧
      WritesOnly rd (f (x s rs1) (x s rs2)) (s.cur.IF.PC.toNat + 4) s t

/-- A register-immediate rule, the same with the immediate as second operand. -/
def RegImmRule (mk : RegIx → RegIx → Int → Instr) (pattern : Word) (f : Int → Int → Int) : Prop :=
  (∀ w : Word, w &&& 0x0000707F = pattern →
      decodeP w = some (mk (regAt w 7) (regAt w 15) (immediateI w))) ∧
    ∀ (rd rs1 : RegIx) (imm : Int) (s : State), ∃ t, exec (mk rd rs1 imm) s = .next t ∧
      WritesOnly rd (f (x s rs1) imm) (s.cur.IF.PC.toNat + 4) s t

/-- A branch rule: its row, taken to an aligned target, the fault on a misaligned one, the default
successor when not taken. -/
def BranchRule (mk : RegIx → RegIx → Int → Instr) (pattern : Word) (cond : Int → Int → Prop) : Prop :=
  (∀ w : Word, w &&& 0x0000707F = pattern →
      decodeP w = some (mk (regAt w 15) (regAt w 20) (immediateB w))) ∧
    ∀ (rs1 rs2 : RegIx) (imm : Int) (s : State),
      let t : Int := ((s.cur.IF.PC.toNat : Int) + imm) % 2 ^ 32
      (cond (x s rs1) (x s rs2) → t % 4 = 0 →
          exec (mk rs1 rs2 imm) s = .next (withNextPC s t.toNat)) ∧
        (cond (x s rs1) (x s rs2) → t % 4 ≠ 0 →
          exec (mk rs1 rs2 imm) s = .fault (.misalignedTarget t.toNat)) ∧
        (¬ cond (x s rs1) (x s rs2) →
          exec (mk rs1 rs2 imm) s = .next (withNextPC s (s.cur.IF.PC.toNat + 4)))

/-- The masks and patterns of the fourteen operations (30_encoding.md R96; `HALT` apart). -/
def operationRows : List (Word × Word) :=
  [(0xFE00707F, 0x00000033), (0xFE00707F, 0x40000033), (0xFE00707F, 0x00004033),
   (0xFE00707F, 0x00006033), (0xFE00707F, 0x00007033), (0x0000707F, 0x00000013),
   (0x0000707F, 0x00004013), (0x0000707F, 0x00006013), (0x0000707F, 0x00007013),
   (0x0000707F, 0x00002003), (0x0000707F, 0x00002023), (0x0000707F, 0x00000063),
   (0x0000707F, 0x00001063), (0x0000007F, 0x0000006F)]

/-- The row of an instruction in the table of 30_encoding.md R96, mask and pattern. -/
def rowOf : Instr → Word × Word
  | .add _ _ _ => (0xFE00707F, 0x00000033)
  | .sub _ _ _ => (0xFE00707F, 0x40000033)
  | .xor _ _ _ => (0xFE00707F, 0x00004033)
  | .or _ _ _ => (0xFE00707F, 0x00006033)
  | .and _ _ _ => (0xFE00707F, 0x00007033)
  | .addi _ _ _ => (0x0000707F, 0x00000013)
  | .xori _ _ _ => (0x0000707F, 0x00004013)
  | .ori _ _ _ => (0x0000707F, 0x00006013)
  | .andi _ _ _ => (0x0000707F, 0x00007013)
  | .lw _ _ _ => (0x0000707F, 0x00002003)
  | .sw _ _ _ => (0x0000707F, 0x00002023)
  | .beq _ _ _ => (0x0000707F, 0x00000063)
  | .bne _ _ _ => (0x0000707F, 0x00001063)
  | .jal _ _ => (0x0000007F, 0x0000006F)
  | .halt => (0xFFFFFFFF, 0xFFFFFFFF)

/-! ### Cycles and runs -/

/-- A state with a step (45_fetch_and_execution_loop.md R201). -/
def HasStep (s : State) : Prop := s.halted = false ∧ s.fault = none

/-- The state after steps 0 and 1 of a cycle (R202, R203). -/
def opened (s : State) : State := { s with nxt := s.cur, halted := s.halted || s.cur.IF.nop }

/-- The state after steps 5 and 6 of a cycle (R207, R208). -/
def closed (u : State) : State :=
  let rfRecord : RfRecord :=
    { cycle := u.cycle, regs := Vector.ofFn fun i => if i = 0 then 0 else u.rf[i] }
  let stRecord : StRecord := { cycle := u.cycle, latches := u.nxt }
  { u with
    cur := u.nxt
    cycle := u.cycle + 1
    rfTrace := if u.cycle = 0 then [rfRecord] else u.rfTrace ++ [rfRecord]
    stTrace := if u.cycle = 0 then [stRecord] else u.stTrace ++ [stRecord] }

/-- The word the next fetch reads. -/
def fetchedWord (s : State) : Word := bigEndianWord s.imem s.cur.IF.PC.toNat

/-- The window of the next fetch lies in the image. -/
def FetchInside (s : State) : Prop := s.cur.IF.PC.toNat + 4 ≤ s.imem.size

/-- The state with its two traces replaced. -/
def withTraces (s : State) (r : List RfRecord) (q : List StRecord) : State :=
  { s with rfTrace := r, stTrace := q }

/-- Two states that agree but for the two traces and for the fields of the ID, EX, MEM and WB
latches. -/
def AgreeOutsideLaterStages (s s' : State) : Prop :=
  s'.cur.IF = s.cur.IF ∧ s'.nxt.IF = s.nxt.IF ∧
    { s' with cur := s.cur, nxt := s.nxt, rfTrace := s.rfTrace, stTrace := s.stTrace } = s

/-- A valid image line (30_encoding.md R83). -/
def ValidLine (line : List Char) : Prop := line.length = 8 ∧ ∀ c ∈ line, c = '0' ∨ c = '1'

/-- The cells of `m` are the lines, each line's first character in bit 7 (30_encoding.md R82). -/
def CellsOfLines (m : Memory) (lines : List (List Char)) : Prop :=
  ∀ k l, lines[k]? = some l → ∀ j < 8, (m.byte k).getLsbD (7 - j) = decide (l[j]? = some '1')

/-- `k` is the first line that is not valid. -/
def FirstBadLine (lines : List (List Char)) (k : Nat) : Prop :=
  (∃ line, lines[k]? = some line ∧ ¬ ValidLine line) ∧
    ∀ j < k, ∀ line, lines[j]? = some line → ValidLine line

end Sys2Proof.Claims

open Sys2Proof Sys2Proof.Machine Sys2Proof.Claims

/-! ### Encoding -/

/-- Decoding the word of a well-formed instruction gives it back, with every operand. -/
def Obligations.DecodeOfEncode : Prop :=
  ∀ i : Instr, i.wf = true → decode (encode i) = .ok i

/-- A word that decodes is the encoding of what it decodes to, which is well-formed: no bit of a
recognised word is dropped. -/
def Obligations.EncodeOfDecode : Prop :=
  ∀ (w : Word) (i : Instr), decode w = .ok i → encode i = w ∧ i.wf = true

/-- R96: exactly the words of the table's rows decode, each to its row's instruction and `HALT`'s to
`none` under the profile; no word selects two rows. -/
def Obligations.OpcodeMapExact : Prop :=
  (∀ w : Word, (decodeP w).isSome = true ↔ ∃ r ∈ operationRows, w &&& r.1 = r.2) ∧
    (∀ (w : Word) (i : Instr), decode w = .ok i → w &&& (rowOf i).1 = (rowOf i).2) ∧
    (∀ w : Word, decode w = .ok .halt ↔ w = 0xFFFFFFFF) ∧ decodeP 0xFFFFFFFF = none ∧
    ∀ w : Word, ((operationRows ++ [(0xFFFFFFFF, 0xFFFFFFFF)]).filter
      fun r : Word × Word => w &&& r.1 == r.2).length ≤ 1

/-- Words written out from the formats decode to the instructions they stand for. -/
def Obligations.WordsOfEachFormat : Prop :=
  decode 0x002081B3 = .ok (.add 3 1 2) ∧ decode 0x7FF00093 = .ok (.addi 1 0 2047) ∧
    decode 0x3E402083 = .ok (.lw 1 0 996) ∧ decode 0xFE112FA3 = .ok (.sw 1 2 (-1)) ∧
    decode 0xFE009CE3 = .ok (.bne 1 0 (-8)) ∧ decode 0xFFDFF0EF = .ok (.jal 1 (-4)) ∧
    decode 0xFFFFFFFF = .ok .halt

/-! ### The instructions (47_test_profile.md) -/

/-- R14: `wrap32 n` is the one value of `SInt32` congruent to `n` modulo `2^32`. -/
def Obligations.WrapIsTheRepresentative : Prop :=
  ∀ n m : Int, (-2 ^ 31 ≤ m ∧ m < 2 ^ 31 ∧ m % 2 ^ 32 = n % 2 ^ 32) ↔ m = wrap32 n

/-- R253. -/
def Obligations.AddRule : Prop := RegRegRule .add 0x00000033 fun a b => wrap32 (a + b)

/-- R254. -/
def Obligations.SubRule : Prop := RegRegRule .sub 0x40000033 fun a b => wrap32 (a - b)

/-- R255. -/
def Obligations.XorRule : Prop :=
  RegRegRule .xor 0x00004033 fun a b => (BitVec.ofInt 32 a ^^^ BitVec.ofInt 32 b).toInt

/-- R256. -/
def Obligations.OrRule : Prop :=
  RegRegRule .or 0x00006033 fun a b => (BitVec.ofInt 32 a ||| BitVec.ofInt 32 b).toInt

/-- R257. -/
def Obligations.AndRule : Prop :=
  RegRegRule .and 0x00007033 fun a b => (BitVec.ofInt 32 a &&& BitVec.ofInt 32 b).toInt

/-- R258. -/
def Obligations.AddiRule : Prop := RegImmRule .addi 0x00000013 fun a b => wrap32 (a + b)

/-- R259. -/
def Obligations.XoriRule : Prop :=
  RegImmRule .xori 0x00004013 fun a b => (BitVec.ofInt 32 a ^^^ BitVec.ofInt 32 b).toInt

/-- R260. -/
def Obligations.OriRule : Prop :=
  RegImmRule .ori 0x00006013 fun a b => (BitVec.ofInt 32 a ||| BitVec.ofInt 32 b).toInt

/-- R261. -/
def Obligations.AndiRule : Prop :=
  RegImmRule .andi 0x00007013 fun a b => (BitVec.ofInt 32 a &&& BitVec.ofInt 32 b).toInt

/-- R262: its row; a load inside the memory puts the big-endian signed word in `rd`; a load whose
window leaves the memory faults, `rd = x0` included. -/
def Obligations.LwRule : Prop :=
  (∀ w : Word, w &&& 0x0000707F = 0x00002003 →
      decodeP w = some (.lw (regAt w 7) (regAt w 15) (immediateI w))) ∧
    ∀ (rd rs1 : RegIx) (imm : Int) (s : State),
      let a : Int := (x s rs1 + imm) % 2 ^ 32
      (a + 4 ≤ s.dmem.size → ∃ t, exec (.lw rd rs1 imm) s = .next t ∧
          WritesOnly rd (bigEndianWord s.dmem a.toNat).toInt (s.cur.IF.PC.toNat + 4) s t) ∧
        (s.dmem.size < a + 4 → exec (.lw rd rs1 imm) s = .fault (.dataOutOfBounds a))

/-- R263: its row; a store inside the memory writes the four cells from the effective address, most
significant first, and nothing else but the successor; a store outside faults. The memory is in
canonical form, which every step keeps (BlockInvariantKept). -/
def Obligations.SwRule : Prop :=
  (∀ w : Word, w &&& 0x0000707F = 0x00002023 →
      decodeP w = some (.sw (regAt w 20) (regAt w 15) (immediateS w))) ∧
    ∀ (rs2 rs1 : RegIx) (imm : Int) (s : State), s.dmem.wf →
      let a : Int := (x s rs1 + imm) % 2 ^ 32
      (a + 4 ≤ s.dmem.size → ∃ t, exec (.sw rs2 rs1 imm) s = .next t ∧
          HoldsWord t.dmem a.toNat (BitVec.ofInt 32 (x s rs2)) ∧ SameOutside s.dmem t.dmem a.toNat ∧
          t = { withNextPC s (s.cur.IF.PC.toNat + 4) with dmem := t.dmem }) ∧
        (s.dmem.size < a + 4 → exec (.sw rs2 rs1 imm) s = .fault (.dataOutOfBounds a))

/-- R264. -/
def Obligations.BeqRule : Prop := BranchRule .beq 0x00000063 fun a b => a = b

/-- R265. -/
def Obligations.BneRule : Prop := BranchRule .bne 0x00001063 fun a b => a ≠ b

/-- R266: its row; a jump to an aligned target links and jumps; a jump to a misaligned one faults. -/
def Obligations.JalRule : Prop :=
  (∀ w : Word, w &&& 0x0000007F = 0x0000006F →
      decodeP w = some (.jal (regAt w 7) (immediateJ w))) ∧
    ∀ (rd : RegIx) (imm : Int) (s : State),
      let t : Int := ((s.cur.IF.PC.toNat : Int) + imm) % 2 ^ 32
      (t % 4 = 0 → ∃ u, exec (.jal rd imm) s = .next u ∧
          WritesOnly rd (wrap32 (s.cur.IF.PC.toNat + 4)) t.toNat s u) ∧
        (t % 4 ≠ 0 → exec (.jal rd imm) s = .fault (.misalignedTarget t.toNat))

/-- `HALT` decodes to no operation; the cycle that fetches it sets `halted`, counts, is traced, and
leaves the latches as they were (R267). That `exec` of the constructor completes by setting `halted`
is the model's own choice (log 6): the spec's `HALT` is never executed. -/
def Obligations.HaltRule : Prop :=
  decodeP 0xFFFFFFFF = none ∧
    (∀ s : State, exec .halt s = .next { s with halted := true }) ∧
    ∀ s : State, HasStep s → FetchInside s → fetchedWord s = 0xFFFFFFFF →
      step s = .next (closed { s with nxt := s.cur, halted := true })

/-- R87: a word the profile does not recognise decodes to `none` and halts the run in its cycle, as
the sentinel does, with no fault and no effect on registers or memory; words of RV32I that the
profile leaves out are such words (R97, R313). -/
def Obligations.UnlistedWordHalts : Prop :=
  (∀ s : State, HasStep s → FetchInside s → (∀ r ∈ operationRows, fetchedWord s &&& r.1 ≠ r.2) →
      decodeP (fetchedWord s) = none ∧
        step s = .next (closed { s with nxt := s.cur, halted := true })) ∧
    decodeP 0x00000000 = none ∧ decodeP 0x00000073 = none ∧ decodeP 0x0000000F = none ∧
    decodeP 0x02000033 = none

/-- R252: the profile writes no latch field but `nxt.IF`, leaves it live, and raises no fault but the
two the rules of its instructions name. -/
def Obligations.ProfileCommonPart : Prop :=
  ∀ (i : Instr) (s : State), i ≠ .halt →
    (∀ t, exec i s = .next t →
      t.nxt.IF.nop = false ∧ { t.nxt with IF := s.nxt.IF } = s.nxt) ∧
    (∀ f, exec i s = .fault f → (∃ a, f = .dataOutOfBounds a) ∨ ∃ t, f = .misalignedTarget t) ∧
    ∀ r, exec i s ≠ .refused r

/-- R269: what the pseudo-instructions that compute do. -/
def Obligations.PseudoInstructionEffects : Prop :=
  ∀ (rd rs : RegIx) (imm : Int) (s : State),
    exec (expandPseudo .nop) s = .next (withNextPC s (s.cur.IF.PC.toNat + 4)) ∧
    (∃ t, exec (expandPseudo (.mv rd rs)) s = .next t ∧
      WritesOnly rd (x s rs) (s.cur.IF.PC.toNat + 4) s t) ∧
    (-2048 ≤ imm → imm ≤ 2047 → ∃ t, exec (expandPseudo (.li rd imm)) s = .next t ∧
      WritesOnly rd imm (s.cur.IF.PC.toNat + 4) s t) ∧
    (∃ t, exec (expandPseudo (.not rd rs)) s = .next t ∧
      WritesOnly rd (-x s rs - 1) (s.cur.IF.PC.toNat + 4) s t) ∧
    ∃ t, exec (expandPseudo (.neg rd rs)) s = .next t ∧
      WritesOnly rd (wrap32 (-x s rs)) (s.cur.IF.PC.toNat + 4) s t

/-! ### The codec (40_codec.md) -/

/-- R101: the value of a binary string, and the fault on anything else. -/
def Obligations.CodecDecodeRule : Prop :=
  ∀ s : BinString,
    (s ≠ [] → (∀ c ∈ s, c = '0' ∨ c = '1') →
      codecDecode s = .ok
        ((∑ k ∈ Finset.range s.length, if s[k]? = some '1' then (2 : Int) ^ (s.length - 1 - k) else 0) -
          if s[0]? = some '1' then 2 ^ s.length else 0)) ∧
    ((s = [] ∨ ∃ c ∈ s, c ≠ '0' ∧ c ≠ '1') → codecDecode s = .error (.codecBadString s))

/-- R102, R103, R106: in range, the `w` digits of `v mod 2^w`; out of range, the fault. -/
def Obligations.CodecEncodeRule : Prop :=
  ∀ (v : Int) (w : Nat), 0 < w →
    (-2 ^ (w - 1) ≤ v ∧ v < 2 ^ (w - 1) → ∃ s, codecEncode v w = .ok s ∧ s.length = w ∧
      ∀ k < w, s[k]? = some (if (v % 2 ^ w).toNat.testBit (w - 1 - k) then '1' else '0')) ∧
    (v < -2 ^ (w - 1) ∨ 2 ^ (w - 1) ≤ v → codecEncode v w = .error (.codecRange v w))

/-- R104: both round trips, at every width. -/
def Obligations.CodecRoundTrips : Prop :=
  (∀ (v : Int) (w : Nat), 0 < w → -2 ^ (w - 1) ≤ v → v < 2 ^ (w - 1) →
      ∃ s, codecEncode v w = .ok s ∧ codecDecode s = .ok v) ∧
    ∀ s : BinString, s ≠ [] → (∀ c ∈ s, c = '0' ∨ c = '1') →
      ∃ v, codecDecode s = .ok v ∧ codecEncode v s.length = .ok s

/-- R105: the codec on strings is the signed reading on bits, and the ports' view at width 32 is the
codec's. -/
def Obligations.CodecBitView : Prop :=
  (∀ (w : Nat) (b : BitVec w), 0 < w → codecDecode (stringOfBits b) = .ok b.toInt ∧
      codecEncode b.toInt w = .ok (stringOfBits b)) ∧
    (∀ b : Word, codecDecode (stringOfBits b) = .ok (signed b)) ∧
    ∀ v : Int, (∀ b, encode32 v = .ok b ↔ codecEncode v 32 = .ok (stringOfBits b)) ∧
      ∀ f, encode32 v = .error f ↔ codecEncode v 32 = .error f

/-! ### Memories (20_memory.md, 41_instruction_memory.md, 42_data_memory.md) -/

/-- R121: the word of the four cells from the PC, at any alignment, or the fault; no wrap. -/
def Obligations.FetchRule : Prop :=
  ∀ (m : Memory) (pc : Word),
    (pc.toNat + 4 ≤ m.size → ∃ w, iFetch m pc.toNat = .ok w ∧ HoldsWord m pc.toNat w) ∧
    (m.size < pc.toNat + 4 → iFetch m pc.toNat = .error (.fetchOutOfRange pc.toNat))

/-- R141: the signed big-endian word of any window inside the memory, or the fault. -/
def Obligations.ReadWordRule : Prop :=
  ∀ (s : State) (a : Int),
    (0 ≤ a → a + 4 ≤ s.dmem.size →
      memRead s a = .ok (bigEndianWord s.dmem a.toNat).toInt) ∧
    (a < 0 ∨ s.dmem.size < a + 4 → memRead s a = .error (.dataOutOfBounds a))

/-- R142, R144: bounds, then range, then the four cells; nothing else changes, and a read at the same
address gives the value back. -/
def Obligations.WriteWordRule : Prop :=
  ∀ (s : State) (a v : Int), s.dmem.wf →
    (a < 0 ∨ s.dmem.size < a + 4 → memWrite s a v = .error (.dataOutOfBounds a)) ∧
    (0 ≤ a → a + 4 ≤ s.dmem.size → v < -2 ^ 31 ∨ 2 ^ 31 ≤ v →
      memWrite s a v = .error (.codecRange v 32)) ∧
    (0 ≤ a → a + 4 ≤ s.dmem.size → -2 ^ 31 ≤ v → v < 2 ^ 31 →
      ∃ t, memWrite s a v = .ok t ∧ HoldsWord t.dmem a.toNat (BitVec.ofInt 32 v) ∧
        SameOutside s.dmem t.dmem a.toNat ∧ t = { s with dmem := t.dmem } ∧ memRead t a = .ok v)

/-- R122, R68: no cell of instruction memory, nor its length, changes in any run of any decoder and
executor. -/
def Obligations.InstructionMemoryImmutable : Prop :=
  ∀ (Op : Type) (c : Collaborators Op) (draws : Nat → Bool) (k n : Nat) (s : State),
    (blockRun c draws k n s).imem = s.imem

/-- R143: the dump is every cell in address order. -/
def Obligations.DumpRule : Prop :=
  ∀ s : State, (memDump s).length = s.dmem.size ∧
    ∀ k < s.dmem.size, (memDump s)[k]? = some (s.dmem.byte k)

/-- Loading the text of a dump gives the same data memory back. -/
def Obligations.DumpReloads : Prop :=
  ∀ s : State, s.dmem.wf → dmemLoad s.dmem.size (some (renderDump (memDump s))) = .ok s.dmem

/-! ### Register file (43_register_file.md) -/

/-- R160. -/
def Obligations.RegisterReadRule : Prop :=
  ∀ s : State, (∀ r : RegIx, rfRead s r.val = .ok (x s r)) ∧
    ∀ i : Int, i < 0 ∨ 31 < i → rfRead s i = .error (.regIndex i)

/-- R161: index check, `x0` discard, range check, then the one register. -/
def Obligations.RegisterWriteRule : Prop :=
  ∀ (s : State) (v : Int),
    (∀ i : Int, i < 0 ∨ 31 < i → rfWrite s i v = .error (.regIndex i)) ∧
    rfWrite s 0 v = .ok s ∧
    ∀ r : RegIx, r ≠ 0 →
      (v < -2 ^ 31 ∨ 2 ^ 31 ≤ v → rfWrite s r.val v = .error (.codecRange v 32)) ∧
      (-2 ^ 31 ≤ v → v < 2 ^ 31 → ∃ t, rfWrite s r.val v = .ok t ∧
        (∀ q, x t q = if q = r then v else x s q) ∧ (∀ q : RegIx, q ≠ r → t.rf[q] = s.rf[q]) ∧
        t = { s with rf := t.rf })

/-! ### Images and startup (30_encoding.md, 70_reset_and_hazards.md) -/

/-- R83: the lines of a text with either terminator, with or without a final newline. -/
def Obligations.ImageLinesRule : Prop :=
  ∀ lines : List (List Char), (∀ l ∈ lines, ∀ c ∈ l, c ≠ '\n' ∧ c ≠ '\r') →
    imageLines (lines.flatMap fun l => l ++ ['\n']) = lines ∧
    imageLines (lines.flatMap fun l => l ++ ['\r', '\n']) = lines ∧
    ∀ last : List Char, last ≠ [] → (∀ c ∈ last, c ≠ '\n' ∧ c ≠ '\r') →
      imageLines ((lines.flatMap fun l => l ++ ['\n']) ++ last) = lines ++ [last]

/-- R120: the loaded instruction memory is the lines of the image, unpadded; a missing or malformed
image is a configuration error. -/
def Obligations.InstructionImageLoad : Prop :=
  imemLoad none = .error (.missingImage .instruction) ∧
    ∀ text : ImageText,
      ((∀ l ∈ imageLines text, ValidLine l) → ∃ m, imemLoad (some text) = .ok m ∧ m.wf ∧
        m.size = (imageLines text).length ∧ CellsOfLines m (imageLines text)) ∧
      ∀ k, FirstBadLine (imageLines text) k →
        imemLoad (some text) = .error (.malformedLine .instruction k)

/-- R140: the loaded data memory is the lines of the image and zero up to the capacity; a missing,
malformed or over-long image is a configuration error. -/
def Obligations.DataImageLoad : Prop :=
  ∀ capacity : Nat, dmemLoad capacity none = .error (.missingImage .data) ∧
    ∀ text : ImageText,
      ((∀ l ∈ imageLines text, ValidLine l) → (imageLines text).length ≤ capacity →
        ∃ m, dmemLoad capacity (some text) = .ok m ∧ m.wf ∧ m.size = capacity ∧
          CellsOfLines m (imageLines text) ∧
          ∀ a, (imageLines text).length ≤ a → m.byte a = 0) ∧
      ((∀ l ∈ imageLines text, ValidLine l) → capacity < (imageLines text).length →
        dmemLoad capacity (some text) = .error (.imageTooLarge (imageLines text).length)) ∧
      ∀ k, FirstBadLine (imageLines text) k →
        dmemLoad capacity (some text) = .error (.malformedLine .data k)

/-- R40, R331: the state after startup. `aluop_reset` is the open value of Config. -/
def Obligations.StartupStateValues : Prop :=
  ∀ (capacity : Nat) (ti td : ImageText) (s : State), startup capacity (some ti) (some td) = .ok s →
    (s.imem.size = (imageLines ti).length ∧ CellsOfLines s.imem (imageLines ti)) ∧
    (s.dmem.size = capacity ∧ CellsOfLines s.dmem (imageLines td) ∧
      ∀ a, (imageLines td).length ≤ a → s.dmem.byte a = 0) ∧
    (∀ r : RegIx, s.rf[r] = 0) ∧
    s.cur.IF = { nop := false, PC := 0 } ∧
    s.cur.ID = { nop := true, Instr := 0 } ∧
    s.cur.EX =
      { nop := true, Read_data1 := 0, Read_data2 := 0, Imm := 0, Rs := 0, Rt := 0,
        Wrt_reg_addr := 0, is_I_type := false, rd_mem := false, wrt_mem := false,
        alu_op := Config.aluopReset, wrt_enable := false } ∧
    s.cur.MEM =
      { nop := true, ALUresult := 0, Store_data := 0, Rs := 0, Rt := 0, Wrt_reg_addr := 0,
        rd_mem := false, wrt_mem := false, wrt_enable := false } ∧
    s.cur.WB =
      { nop := true, Wrt_data := 0, Rs := 0, Rt := 0, Wrt_reg_addr := 0, wrt_enable := false } ∧
    s.nxt = s.cur ∧ s.cycle = 0 ∧ s.halted = false ∧ s.fault = none ∧ s.rfTrace = [] ∧ s.stTrace = []

/-! ### The loop, for every decoder and executor (45_fetch_and_execution_loop.md) -/

/-- R201: the step is refused exactly in a halted and in a faulted state. -/
def Obligations.StepEnabledExactly : Prop :=
  ∀ (Op : Type) (c : Collaborators Op) (flag : Bool) (s : State),
    (∃ r, blockStep c flag s = .refused r) ↔ (s.halted = true ∨ s.fault ≠ none)

/-- R202 to R209: the whole cycle, in order, for every draw. A cycle entered with `cur.IF.nop` set
still fetches, decodes and executes (log 19). -/
def Obligations.CycleRule : Prop :=
  ∀ (Op : Type) (c : Collaborators Op) (flag : Bool) (s : State), HasStep s →
    (¬ FetchInside s → blockStep c flag s = .fault (.fetchOutOfRange s.cur.IF.PC.toNat)) ∧
    (FetchInside s → c.decode (fetchedWord s) = none →
      blockStep c flag s = .next (closed { opened s with halted := true })) ∧
    (FetchInside s → ∀ op, c.decode (fetchedWord s) = some op →
      (∀ u, runPorts (c.execute op flag) (opened s) = .next u →
        blockStep c flag s = .next (closed u)) ∧
      ∀ f, runPorts (c.execute op flag) (opened s) = .fault f → blockStep c flag s = .fault f)

/-- R214: a completed step adds exactly 1 to `cycle`; over any run the counter never decreases and
`halted` never becomes false again. -/
def Obligations.CountersMonotone : Prop :=
  ∀ (Op : Type) (c : Collaborators Op),
    (∀ flag s t, blockStep c flag s = .next t → t.cycle = s.cycle + 1) ∧
    ∀ (draws : Nat → Bool) (k n : Nat) (s : State),
      s.cycle ≤ (blockRun c draws k n s).cycle ∧
      ∀ m ≤ n, (blockRun c draws k m s).halted = true → (blockRun c draws k n s).halted = true

/-- R215: a completed cycle halts exactly on its two triggers, it counts and is traced, and no
cycle follows it. -/
def Obligations.HaltTriggersExactly : Prop :=
  ∀ (Op : Type) (c : Collaborators Op) (flag : Bool) (s t : State), blockStep c flag s = .next t →
    (t.halted = true ↔ (s.cur.IF.nop = true ∨ c.decode (fetchedWord s) = none)) ∧
    t.cycle = s.cycle + 1 ∧ t.rfTrace.getLast?.map RfRecord.cycle = some s.cycle ∧
    t.stTrace.getLast?.map StRecord.cycle = some s.cycle ∧
    (t.halted = true → ∀ draws k n, blockRun c draws k n t = t)

/-- R217, R307: a faulting step leaves the state it started from with the mark set, and no step
follows. -/
def Obligations.FaultLeavesPreStepState : Prop :=
  ∀ (Op : Type) (c : Collaborators Op) (draws : Nat → Bool) (k n : Nat) (s : State) (f : Fault),
    blockStep c (draws k) s = .fault f →
      blockRun c draws k (n + 1) s = { s with fault := some f } ∧
      ∀ flag, ∃ r, blockStep c flag { s with fault := some f } = .refused r

/-- R211: whatever an executor calls, it reaches only registers, data memory and `nxt`, keeps the
capacity and slot 0, and depends on nothing but these and `cur`. -/
def Obligations.ExecutorReachesOnlyItsPorts : Prop :=
  ∀ (p : PortProgram) (s : State),
    (∀ t, runPorts p s = .next t →
      t = { s with rf := t.rf, dmem := t.dmem, nxt := t.nxt } ∧ t.dmem.size = s.dmem.size ∧
        t.rf[0] = s.rf[0]) ∧
    ∀ s' : State, s'.rf = s.rf → s'.dmem = s.dmem → s'.cur = s.cur → s'.nxt = s.nxt →
      (∀ f, runPorts p s = .fault f → runPorts p s' = .fault f) ∧
      ∀ t, runPorts p s = .next t →
        runPorts p s' = .next { s' with rf := t.rf, dmem := t.dmem, nxt := t.nxt }

/-- R339: inside one cycle a read sees every earlier write of the cycle. -/
def Obligations.WritesVisibleInTheSameCycle : Prop :=
  ∀ (s : State) (v : Int) (rest : Int → PortProgram), s.dmem.wf → -2 ^ 31 ≤ v → v < 2 ^ 31 →
    (∀ r : RegIx, r ≠ 0 → runPorts (.writeReg r.val v (.readReg r.val rest)) s =
      runPorts (.writeReg r.val v (rest v)) s) ∧
    ∀ a : Int, runPorts (.writeMem a v (.readMem a rest)) s = runPorts (.writeMem a v (rest v)) s

/-- R337: a write of `nxt` is not visible through `cur` in the same cycle. -/
def Obligations.NextLatchesHiddenUntilCommit : Prop :=
  ∀ (s : State) (rest : PipelineState → PortProgram),
    (∀ b, runPorts (.writeNop b (.readCur rest)) s = runPorts (.writeNop b (rest s.cur)) s) ∧
    (∀ v, runPorts (.writePC v (.readCur rest)) s = runPorts (.writePC v (rest s.cur)) s) ∧
    ∀ w, runPorts (.writeField w (.readCur rest)) s = runPorts (.writeField w (rest s.cur)) s

/-- R241: the traces feed back into nothing. -/
def Obligations.OutputsDoNotFeedBack : Prop :=
  ∀ (Op : Type) (c : Collaborators Op) (flag : Bool) (s : State) (r : List RfRecord)
    (q : List StRecord),
    (∀ t, blockStep c flag s = .next t → ∃ r' q',
      blockStep c flag (withTraces s r q) = .next (withTraces t r' q')) ∧
    (∀ f, blockStep c flag s = .fault f → blockStep c flag (withTraces s r q) = .fault f) ∧
    ∀ e, blockStep c flag s = .refused e → blockStep c flag (withTraces s r q) = .refused e

/-- R231 to R233: in every run from startup each trace holds one record per completed cycle, in
order, record `k` being the registers and the latches after cycle `k`. -/
def Obligations.TracesRecordTheRun : Prop :=
  ∀ (Op : Type) (c : Collaborators Op) (draws : Nat → Bool) (imem dmem : Memory) (n : Nat),
    let run := fun k => blockRun c draws 0 k (State.resetWith imem dmem)
    (run n).rfTrace.length = (run n).cycle ∧ (run n).stTrace.length = (run n).cycle ∧
    ∀ k < (run n).cycle,
      (run n).rfTrace[k]? = some
        { cycle := k, regs := Vector.ofFn fun i => if i = 0 then 0 else (run (k + 1)).rf[i] } ∧
      (run n).stTrace[k]? = some { cycle := k, latches := (run (k + 1)).cur }

/-! ### Invariants -/

/-- The block's invariant (slot 0, canonical memories, `nxt = cur`, numbered and current traces)
holds after every step of any decoder and executor. -/
def Obligations.BlockInvariantKept : Prop :=
  ∀ (Op : Type) (c : Collaborators Op) (flag : Bool) (s t : State),
    blockInv s → blockStep c flag s = .next t → blockInv t

/-- The profile's invariant, which adds the aligned PC and the untouched later stages, holds after
every step of the machine. -/
def Obligations.ProfileInvariantKept : Prop :=
  ∀ s t : State, profileInv s → step s = .next t → profileInv t

/-- The profile's invariant holds after every startup, and in the host's reset state. -/
def Obligations.InvariantAtStartup : Prop :=
  profileInv State.reset ∧
    ∀ capacity ti td s, startup capacity ti td = .ok s → profileInv s

/-! ### The machine: the block with the test profile -/

/-- The step is the block's cycle with `Decode_P` and `Execute_P`, for every draw of `branchFlag`. -/
def Obligations.StepIsTheProfiledBlock : Prop :=
  ∀ (flag : Bool) (s : State), step s = blockStep profile flag s

/-- The cells at the PC decode to `i`: the step is `exec i` between the opening and the closing of
the cycle. -/
def Obligations.StepRunsTheDecodedInstruction : Prop :=
  ∀ (s : State) (i : Instr), HasStep s → FetchInside s → decode (fetchedWord s) = .ok i →
    (∀ u, exec i (opened s) = .next u → step s = .next (closed u)) ∧
    (∀ f, exec i (opened s) = .fault f → step s = .fault f) ∧
    ∀ r, exec i (opened s) ≠ .refused r

/-- R340: in a run of the machine that ends, every cycle but the last executed one operation, and
the last one none. -/
def Obligations.EndedRunExecutedAllButOne : Prop :=
  ∀ (imem dmem : Memory) (n : Nat),
    let run := fun k => runCycles k (State.resetWith imem dmem)
    ended (run n) = true → ∃ m, (run n).cycle = m + 1 ∧
      (∀ k < m, (decodeP (fetchedWord (run k))).isSome = true) ∧
      decodeP (fetchedWord (run m)) = none

/-- R186: under the profile the fields of the later stages and the traces influence nothing else. -/
def Obligations.BubbleFieldsInfluenceNothing : Prop :=
  ∀ s s' : State, AgreeOutsideLaterStages s s' →
    (∀ t, step s = .next t → ∃ t', step s' = .next t' ∧ AgreeOutsideLaterStages t t') ∧
    (∀ f, step s = .fault f → step s' = .fault f) ∧
    ∀ e, step s = .refused e → step s' = .refused e

/-- R190: the five-stage variant is refused by name in every state. -/
def Obligations.FiveStageRefused : Prop :=
  ∀ s : State, variantStep .fiveStage s = .refused .fiveStageVariant ∧
    variantStep .singleStage s = step s

/-! ### Outputs (46_trace_and_metrics.md) -/

/-- R236: IPC is the multiple of `10^-6` nearest to `(C - 1) / C`, a tie going to the even one. -/
def Obligations.IpcIsNearestMillionth : Prop :=
  ∀ c : Nat, 0 < c → ∃ m : Nat, ipcOf c = (m : Rat) / 1000000 ∧
    |(m : Rat) / 1000000 - ((c : Rat) - 1) / c| ≤ 1 / 2000000 ∧
    (|(m : Rat) / 1000000 - ((c : Rat) - 1) / c| = 1 / 2000000 → m % 2 = 0)

/-- R237, R238: CPI is the inverse of IPC, none at `C = 1`; the inferred count is `ceil(C × IPC)`. -/
def Obligations.CpiAndInferredCount : Prop :=
  ∀ c : Nat, 0 < c →
    (ipcOf c = 0 ↔ c = 1) ∧ (c = 1 → cpiOf c = none) ∧
    (0 < ipcOf c → cpiOf c = some (1 / ipcOf c)) ∧
    (inferredCount c : Int) = ⌈(c : Rat) * ipcOf c⌉ ∧
    (∀ q, cpiOf c = some q → (inferredCount c : Int) = ⌈(c : Rat) / q⌉) ∧
    (c = 1 → inferredCount c = 0)

/-- R234, R235, R216: the dump and the report are given exactly at the end of a run, the dump being
every cell and the report that of the final `cycle`. -/
def Obligations.OutputsOnlyAtTheEnd : Prop :=
  ∀ s : State,
    (s.halted = true ∧ s.fault = none →
      finalDump s = some (memDump s) ∧
      finalReport s = some
        { cycles := s.cycle, ipc := ipcOf s.cycle, cpi := cpiOf s.cycle,
          instructions := inferredCount s.cycle }) ∧
    (s.halted = false ∨ s.fault ≠ none → finalDump s = none ∧ finalReport s = none)
end

