-- ==== Sys2Proof/Laws/Codec.lean ====
section
/-! SUPPORT. What the codec does: ranges, the digits of an encoding, and the bit view at width 32. -/

namespace Sys2Proof.Machine

theorem representable_iff (v : Int) (w : Nat) :
    representable v w = true ↔ 0 < w ∧ -2 ^ (w - 1) ≤ v ∧ v < 2 ^ (w - 1) := by
  simp [representable]

theorem representable_signed (b : Word) : representable (signed b) 32 = true := by
  have h1 := BitVec.toInt_lt (x := b)
  have h2 := BitVec.le_toInt (x := b)
  simp only [representable_iff, signed]
  norm_num at h1 h2 ⊢
  exact ⟨h2, h1⟩

theorem signed_ofInt {v : Int} (h : representable v 32 = true) : signed (BitVec.ofInt 32 v) = v := by
  rw [representable_iff] at h
  norm_num at h
  rw [signed, BitVec.toInt_ofInt, Int.bmod_eq_of_le] <;> norm_num <;> omega

/-- What `encode32` answers. -/
theorem encode32_ok {v : Int} (h : representable v 32 = true) :
    encode32 v = .ok (BitVec.ofInt 32 v) := by simp [encode32, h]

theorem encode32_error {v : Int} (h : representable v 32 = false) :
    encode32 v = .error (.codecRange v 32) := by simp [encode32, h]

theorem encode32_signed (b : Word) : encode32 (signed b) = .ok b := by
  rw [encode32_ok (representable_signed b)]
  simp [signed]

theorem representable_bmod (n : Int) : representable (n.bmod (2 ^ 32)) 32 = true := by
  rw [representable_iff]
  have h1 := Int.le_bmod (x := n) (m := 2 ^ 32) (by norm_num)
  have h2 := Int.bmod_lt (x := n) (m := 2 ^ 32) (by norm_num)
  norm_num at h1 h2 ⊢
  exact ⟨h1, h2⟩

theorem representable_wrap32 (n : Int) : representable (wrap32 n) 32 = true :=
  representable_bmod n

theorem ofInt_wrap32 (n : Int) : BitVec.ofInt 32 (wrap32 n) = BitVec.ofInt 32 n := by
  apply BitVec.eq_of_toInt_eq
  simp [wrap32, BitVec.toInt_ofInt]

/-! The results of the profile's instructions are values a register can hold (R252). -/

theorem representable_sumOf (a b : Int) : representable (sumOf a b) 32 = true := representable_wrap32 _
theorem representable_differenceOf (a b : Int) : representable (differenceOf a b) 32 = true :=
  representable_wrap32 _
theorem representable_xorOf (a b : Int) : representable (xorOf a b) 32 = true := representable_signed _
theorem representable_orOf (a b : Int) : representable (orOf a b) 32 = true := representable_signed _
theorem representable_andOf (a b : Int) : representable (andOf a b) 32 = true := representable_signed _
theorem representable_linkOf (pc : Word) : representable (linkOf pc) 32 = true := representable_wrap32 _

/-! ### Strings -/

theorem unsignedOf_lt (s : BinString) : unsignedOf s < 2 ^ s.length := by
  induction s with
  | nil => simp [unsignedOf]
  | cons c cs ih =>
    simp only [unsignedOf, List.length_cons, pow_succ]
    split_ifs <;> omega

theorem unsignedOf_append (s t : BinString) :
    unsignedOf (s ++ t) = unsignedOf s * 2 ^ t.length + unsignedOf t := by
  induction s with
  | nil => simp [unsignedOf]
  | cons c cs ih =>
    simp only [List.cons_append, unsignedOf, ih, List.length_append, pow_add]
    split_ifs <;> ring

theorem unsignedOf_replicate_zero (n : Nat) : unsignedOf (List.replicate n '0') = 0 := by
  induction n with
  | zero => rfl
  | succ n ih => simp [List.replicate_succ, unsignedOf, ih]

theorem isBinaryDigit_digitChar (n : Nat) : isBinaryDigit (digitChar n) = true := by
  unfold digitChar; split_ifs <;> rfl

theorem unsignedOf_digitChar {n : Nat} (h : n < 2) : unsignedOf [digitChar n] = n := by
  interval_cases n <;> rfl

/-- The digits of `u`: binary characters, of value `u`, at most `fuel` of them, none of them a
leading zero unless `u = 0`. -/
theorem binaryDigits_spec (fuel u : Nat) (hf : 0 < fuel) (h : u < 2 ^ fuel) :
    (binaryDigits fuel u).all isBinaryDigit = true ∧ unsignedOf (binaryDigits fuel u) = u ∧
      0 < (binaryDigits fuel u).length ∧ (binaryDigits fuel u).length ≤ fuel ∧
      (2 ≤ u → 2 ^ ((binaryDigits fuel u).length - 1) ≤ u) := by
  induction fuel generalizing u with
  | zero => omega
  | succ fuel ih =>
    unfold binaryDigits
    split_ifs with hu
    · refine ⟨by simp [isBinaryDigit_digitChar], unsignedOf_digitChar hu, by simp, by simp, by omega⟩
    · have hf' : 0 < fuel := by
        rcases Nat.eq_zero_or_pos fuel with h0 | h0
        · subst h0; omega
        · exact h0
      obtain ⟨ha, hv, hl0, hl, hlead⟩ := ih (u / 2) hf' (by rw [pow_succ] at h; omega)
      refine ⟨by simp [ha, isBinaryDigit_digitChar], ?_, by simp, by simp; omega, fun _ => ?_⟩
      · rw [unsignedOf_append, hv, unsignedOf_digitChar (by omega)]
        simp; omega
      · simp only [List.length_append, List.length_singleton, Nat.add_sub_cancel]
        rcases Nat.lt_or_ge (u / 2) 2 with h2 | h2
        · have : (binaryDigits fuel (u / 2)).length = 1 := by
            cases fuel with
            | zero => omega
            | succ k => simp [binaryDigits, h2]
          rw [this]; omega
        · have := hlead h2
          have he : 2 ^ (binaryDigits fuel (u / 2)).length =
              2 * 2 ^ ((binaryDigits fuel (u / 2)).length - 1) := by
            rw [← pow_succ']; congr 1; omega
          omega

/-- A binary string is the digits of its value, padded to its length. -/
theorem binaryString_ext {s t : BinString} (hs : s.all isBinaryDigit = true)
    (ht : t.all isBinaryDigit = true) (hl : s.length = t.length)
    (hv : unsignedOf s = unsignedOf t) : s = t := by
  induction s generalizing t with
  | nil => cases t <;> simp_all
  | cons c cs ih =>
    cases t with
    | nil => simp at hl
    | cons d ds =>
      simp only [List.all_cons, Bool.and_eq_true] at hs ht
      simp only [List.length_cons, Nat.add_right_cancel_iff] at hl
      have h1 := unsignedOf_lt cs
      have h2 := unsignedOf_lt ds
      simp only [unsignedOf, hl] at hv h1
      have hc : c = '0' ∨ c = '1' := by simpa [isBinaryDigit] using hs.1
      have hd : d = '0' ∨ d = '1' := by simpa [isBinaryDigit] using ht.1
      have hcd : c = d ∧ unsignedOf cs = unsignedOf ds := by
        rcases hc with rfl | rfl <;> rcases hd with rfl | rfl <;> simp_all
        omega
      rw [hcd.1, ih hs.2 ht.2 hl hcd.2]

end Sys2Proof.Machine
end

