-- ==== Sys2Proof/Laws/Decode.lean ====
section
/-! SUPPORT. The opcode map selects at most one row, and the fields of an encoded word are the
operands it was made from. -/

namespace Sys2Proof

/-! ### The opcode map -/

/-- No word selects two rows (spec/30_encoding.md R96): where both masks look, the patterns differ. -/
theorem opcodeRows_disjoint :
    opcodeRows.Pairwise fun r q => (r.mask &&& q.mask) &&& (r.pattern ^^^ q.pattern) ≠ 0 := by decide

theorem selects_iff (r : OpcodeRow) (w : Word) : r.selects w = true ↔ w &&& r.mask = r.pattern := by
  simp [OpcodeRow.selects]

theorem not_both_selected {r q : OpcodeRow} {w : Word}
    (h : (r.mask &&& q.mask) &&& (r.pattern ^^^ q.pattern) ≠ 0) (hr : r.selects w = true) :
    q.selects w = false := by
  by_contra hq
  rw [Bool.not_eq_false] at hq
  rw [selects_iff] at hr hq
  apply h
  rw [← hr, ← hq]
  apply BitVec.eq_of_getLsbD_eq
  intro i hi
  simp only [BitVec.getLsbD_and, BitVec.getLsbD_xor]
  cases w.getLsbD i <;> cases r.mask.getLsbD i <;> cases q.mask.getLsbD i <;> simp

theorem find_selected {rows : List OpcodeRow} {r : OpcodeRow} {w : Word}
    (hd : rows.Pairwise fun r q => (r.mask &&& q.mask) &&& (r.pattern ^^^ q.pattern) ≠ 0)
    (hr : r ∈ rows) (hs : r.selects w = true) : rows.find? (fun q => q.selects w) = some r := by
  induction rows with
  | nil => simp at hr
  | cons q rows ih =>
    rw [List.pairwise_cons] at hd
    rcases List.mem_cons.1 hr with rfl | hr
    · simp [hs]
    · have hq : q.selects w = false := by
        by_contra hq
        rw [Bool.not_eq_false] at hq
        exact absurd hs (by rw [not_both_selected (hd.1 r hr) hq]; simp)
      rw [List.find?_cons_of_neg (by simp [hq]), ih hd.2 hr]

/-- A word that selects a row decodes to the row's instruction. -/
theorem decode_of_row {r : OpcodeRow} {w : Word} (hr : r ∈ opcodeRows) (hs : w &&& r.mask = r.pattern) :
    decode w = .ok (r.build w) := by
  rw [decode, find_selected opcodeRows_disjoint hr ((selects_iff r w).2 hs)]

/-- What the decoder answers: the instruction of a row the word selects, or a rejection. -/
theorem decode_cases (w : Word) :
    (∃ r ∈ opcodeRows, w &&& r.mask = r.pattern ∧ decode w = .ok (r.build w)) ∨
      ((∀ r ∈ opcodeRows, w &&& r.mask ≠ r.pattern) ∧ decode w = .error (.unrecognised w)) := by
  cases h : opcodeRows.find? (fun q => q.selects w) with
  | some r =>
    refine .inl ⟨r, List.mem_of_find?_eq_some h, (selects_iff r w).1 ?_, ?_⟩
    · simpa using List.find?_some h
    · rw [decode, h]
  | none =>
    refine .inr ⟨fun r hr hs => ?_, by rw [decode, h]⟩
    have := List.find?_eq_none.1 h r hr
    exact this ((selects_iff r w).2 hs)

/-! ### Fields of an encoded word -/

theorem extract_hi {v w : Nat} (x : BitVec v) (y : BitVec w) (start len : Nat) (h : w ≤ start) :
    (x ++ y).extractLsb' start len = x.extractLsb' (start - w) len :=
  BitVec.extractLsb'_append_eq_of_le h

theorem extract_lo {v w : Nat} (x : BitVec v) (y : BitVec w) (start len : Nat)
    (h : start + len ≤ w) : (x ++ y).extractLsb' start len = y.extractLsb' start len :=
  BitVec.extractLsb'_append_eq_of_add_le h

@[simp] theorem regField_regBits (r : RegIx) : regField (regBits r) = r := by
  simp [regField, regBits]

variable (funct7 : BitVec 7) (funct3 : BitVec 3) (opcode : BitVec 7) (rd rs1 rs2 : RegIx)

theorem encodeR_fields :
    rdOf (encodeR funct7 funct3 opcode rd rs1 rs2) = rd ∧
      rs1Of (encodeR funct7 funct3 opcode rd rs1 rs2) = rs1 ∧
      rs2Of (encodeR funct7 funct3 opcode rd rs1 rs2) = rs2 := by
  have h1 : (encodeR funct7 funct3 opcode rd rs1 rs2).extractLsb' 7 5 = regBits rd := by
    simp (disch := decide) only [encodeR, extract_hi, extract_lo, Nat.reduceSub,
      BitVec.extractLsb'_eq_self]
  have h2 : (encodeR funct7 funct3 opcode rd rs1 rs2).extractLsb' 15 5 = regBits rs1 := by
    simp (disch := decide) only [encodeR, extract_hi, extract_lo, Nat.reduceSub,
      BitVec.extractLsb'_eq_self]
  have h3 : (encodeR funct7 funct3 opcode rd rs1 rs2).extractLsb' 20 5 = regBits rs2 := by
    simp (disch := decide) only [encodeR, extract_hi, extract_lo, Nat.reduceSub,
      BitVec.extractLsb'_eq_self]
  simp [rdOf, rs1Of, rs2Of, h1, h2, h3]

theorem encodeI_fields (imm : Int) :
    rdOf (encodeI funct3 opcode rd rs1 imm) = rd ∧ rs1Of (encodeI funct3 opcode rd rs1 imm) = rs1 ∧
      immI (encodeI funct3 opcode rd rs1 imm) = (BitVec.ofInt 12 imm).toInt := by
  have h1 : (encodeI funct3 opcode rd rs1 imm).extractLsb' 7 5 = regBits rd := by
    simp (disch := decide) only [encodeI, extract_hi, extract_lo, Nat.reduceSub,
      BitVec.extractLsb'_eq_self]
  have h2 : (encodeI funct3 opcode rd rs1 imm).extractLsb' 15 5 = regBits rs1 := by
    simp (disch := decide) only [encodeI, extract_hi, extract_lo, Nat.reduceSub,
      BitVec.extractLsb'_eq_self]
  have h3 : (encodeI funct3 opcode rd rs1 imm).extractLsb' 20 12 = BitVec.ofInt 12 imm := by
    simp (disch := decide) only [encodeI, extract_hi, Nat.reduceSub,
      BitVec.extractLsb'_eq_self]
  rw [rdOf, rs1Of, immI, h1, h2, h3]
  simp

theorem encodeS_fields (imm : BitVec 12) :
    rs2Of (encodeS funct3 opcode rs1 rs2 imm) = rs2 ∧
      rs1Of (encodeS funct3 opcode rs1 rs2 imm) = rs1 ∧
      immS (encodeS funct3 opcode rs1 rs2 imm) = imm.toInt := by
  have h1 : (encodeS funct3 opcode rs1 rs2 imm).extractLsb' 20 5 = regBits rs2 := by
    simp (disch := decide) only [encodeS, extract_hi, extract_lo, Nat.reduceSub,
      BitVec.extractLsb'_eq_self]
  have h2 : (encodeS funct3 opcode rs1 rs2 imm).extractLsb' 15 5 = regBits rs1 := by
    simp (disch := decide) only [encodeS, extract_hi, extract_lo, Nat.reduceSub,
      BitVec.extractLsb'_eq_self]
  have h3 : (encodeS funct3 opcode rs1 rs2 imm).extractLsb' 25 7 = imm.extractLsb' 5 7 := by
    simp (disch := decide) only [encodeS, extract_hi, Nat.reduceSub,
      BitVec.extractLsb'_eq_self]
  have h4 : (encodeS funct3 opcode rs1 rs2 imm).extractLsb' 7 5 = imm.extractLsb' 0 5 := by
    simp (disch := decide) only [encodeS, extract_hi, extract_lo, Nat.reduceSub,
      BitVec.extractLsb'_eq_self]
  refine ⟨by simp [rs2Of, h1], by simp [rs1Of, h2], ?_⟩
  rw [immS, h3, h4]
  congr 1
  apply BitVec.eq_of_getLsbD_eq
  intro i hi
  rw [BitVec.getLsbD_append]
  simp only [BitVec.getLsbD_extractLsb']
  split_ifs with h
  · simp [h]
  · simp [show i - 5 < 7 by omega, show 5 + (i - 5) = i by omega]

theorem encodeB_fields (imm : BitVec 13) (h0 : imm.getLsbD 0 = false) :
    rs1Of (encodeB funct3 opcode rs1 rs2 imm) = rs1 ∧
      rs2Of (encodeB funct3 opcode rs1 rs2 imm) = rs2 ∧
      immB (encodeB funct3 opcode rs1 rs2 imm) = imm.toInt := by
  have h1 : (encodeB funct3 opcode rs1 rs2 imm).extractLsb' 20 5 = regBits rs2 := by
    simp (disch := decide) only [encodeB, extract_hi, extract_lo, Nat.reduceSub,
      BitVec.extractLsb'_eq_self]
  have h2 : (encodeB funct3 opcode rs1 rs2 imm).extractLsb' 15 5 = regBits rs1 := by
    simp (disch := decide) only [encodeB, extract_hi, extract_lo, Nat.reduceSub,
      BitVec.extractLsb'_eq_self]
  have h3 : (encodeB funct3 opcode rs1 rs2 imm).extractLsb' 31 1 = imm.extractLsb' 12 1 := by
    simp (disch := decide) only [encodeB, extract_hi, Nat.reduceSub,
      BitVec.extractLsb'_eq_self]
  have h4 : (encodeB funct3 opcode rs1 rs2 imm).extractLsb' 7 1 = imm.extractLsb' 11 1 := by
    simp (disch := decide) only [encodeB, extract_hi, extract_lo, Nat.reduceSub,
      BitVec.extractLsb'_eq_self]
  have h5 : (encodeB funct3 opcode rs1 rs2 imm).extractLsb' 25 6 = imm.extractLsb' 5 6 := by
    simp (disch := decide) only [encodeB, extract_hi, extract_lo, Nat.reduceSub,
      BitVec.extractLsb'_eq_self]
  have h6 : (encodeB funct3 opcode rs1 rs2 imm).extractLsb' 8 4 = imm.extractLsb' 1 4 := by
    simp (disch := decide) only [encodeB, extract_hi, extract_lo, Nat.reduceSub,
      BitVec.extractLsb'_eq_self]
  refine ⟨by simp [rs1Of, h2], by simp [rs2Of, h1], ?_⟩
  rw [immB, h3, h4, h5, h6]
  congr 1
  apply BitVec.eq_of_getLsbD_eq
  intro i hi
  rw [BitVec.getLsbD_append, BitVec.getLsbD_append, BitVec.getLsbD_append, BitVec.getLsbD_append]
  simp only [BitVec.getLsbD_extractLsb']
  rw [BitVec.getLsbD_eq_getElem (by decide)] at h0
  interval_cases i <;> simp [h0]

theorem encodeJ_fields (imm : BitVec 21) (h0 : imm.getLsbD 0 = false) :
    rdOf (encodeJ opcode rd imm) = rd ∧ immJ (encodeJ opcode rd imm) = imm.toInt := by
  have h1 : (encodeJ opcode rd imm).extractLsb' 7 5 = regBits rd := by
    simp (disch := decide) only [encodeJ, extract_hi, extract_lo, Nat.reduceSub,
      BitVec.extractLsb'_eq_self]
  have h2 : (encodeJ opcode rd imm).extractLsb' 31 1 = imm.extractLsb' 20 1 := by
    simp (disch := decide) only [encodeJ, extract_hi, Nat.reduceSub,
      BitVec.extractLsb'_eq_self]
  have h3 : (encodeJ opcode rd imm).extractLsb' 12 8 = imm.extractLsb' 12 8 := by
    simp (disch := decide) only [encodeJ, extract_hi, extract_lo, Nat.reduceSub,
      BitVec.extractLsb'_eq_self]
  have h4 : (encodeJ opcode rd imm).extractLsb' 20 1 = imm.extractLsb' 11 1 := by
    simp (disch := decide) only [encodeJ, extract_hi, extract_lo, Nat.reduceSub,
      BitVec.extractLsb'_eq_self]
  have h5 : (encodeJ opcode rd imm).extractLsb' 21 10 = imm.extractLsb' 1 10 := by
    simp (disch := decide) only [encodeJ, extract_hi, extract_lo, Nat.reduceSub,
      BitVec.extractLsb'_eq_self]
  refine ⟨by simp [rdOf, h1], ?_⟩
  rw [immJ, h2, h3, h4, h5]
  congr 1
  apply BitVec.eq_of_getLsbD_eq
  intro i hi
  rw [BitVec.getLsbD_append, BitVec.getLsbD_append, BitVec.getLsbD_append, BitVec.getLsbD_append]
  simp only [BitVec.getLsbD_extractLsb']
  rw [BitVec.getLsbD_eq_getElem (by decide)] at h0
  interval_cases i <;> simp [h0]

end Sys2Proof
end

