-- ==== Sys2Proof/Laws/Memory.lean ====
section
/-! SUPPORT. What the memory operations do: each cell after a write, the canonical form kept, equal
canonical memories equal. -/

namespace Sys2Proof.Machine

/-- A list of cells is sorted by address, bounded below, and lists no unset cell. -/
def SortedCells (lo : Nat) (cells : List Host.Cell) : Prop :=
  cells.Pairwise (fun c d => c.1 < d.1) ∧ ∀ c ∈ cells, lo ≤ c.1 ∧ c.2 ≠ unsetCell

theorem sortedCells_cons {lo : Nat} {c : Host.Cell} {cells : List Host.Cell} :
    SortedCells lo (c :: cells) ↔ lo ≤ c.1 ∧ c.2 ≠ unsetCell ∧ SortedCells (c.1 + 1) cells := by
  constructor
  · rintro ⟨hp, hm⟩
    rw [List.pairwise_cons] at hp
    have hc := hm c (by simp)
    exact ⟨hc.1, hc.2, hp.2, fun d hd => ⟨hp.1 d hd, (hm d (by simp [hd])).2⟩⟩
  · rintro ⟨hlo, hb, hp, hm⟩
    refine ⟨List.pairwise_cons.2 ⟨fun d hd => (hm d hd).1, hp⟩, fun d hd => ?_⟩
    rcases List.mem_cons.1 hd with rfl | hd
    · exact ⟨hlo, hb⟩
    · have := hm d hd
      exact ⟨by omega, this.2⟩

theorem SortedCells.mono {lo lo' : Nat} {cells : List Host.Cell} (h : lo' ≤ lo)
    (hc : SortedCells lo cells) : SortedCells lo' cells :=
  ⟨hc.1, fun c m => ⟨h.trans (hc.2 c m).1, (hc.2 c m).2⟩⟩

theorem lookupCell_below {lo a : Nat} {cells : List Host.Cell} (hc : SortedCells lo cells)
    (ha : a < lo) : lookupCell a cells = unsetCell := by
  induction cells generalizing lo with
  | nil => rfl
  | cons c cells ih =>
    obtain ⟨hlo, -, ht⟩ := sortedCells_cons.1 hc
    rw [lookupCell, if_neg (by omega), ih ht (by omega)]

theorem lookupCell_setCell {lo : Nat} {cells : List Host.Cell} (hc : SortedCells lo cells)
    (a n : Nat) (b : Byte) :
    lookupCell n (setCell a b cells) = if n = a then b else lookupCell n cells := by
  induction cells generalizing lo with
  | nil => unfold setCell; split <;> simp_all [lookupCell, eq_comm]
  | cons c cells ih =>
    obtain ⟨-, -, ht⟩ := sortedCells_cons.1 hc
    have hbelow : c.1 = n → lookupCell n cells = unsetCell := fun h =>
      lookupCell_below ht (by omega)
    obtain ⟨x, y⟩ := c
    simp only [setCell]
    rcases lt_trichotomy x a with h | h | h
    · rw [if_pos h, lookupCell, lookupCell, ih ht]
      split_ifs <;> first | rfl | omega
    · subst h
      simp only [lt_irrefl, if_false, if_true]
      split_ifs with hb hn hn
      · subst hn; rw [hbelow rfl, hb]
      · rw [lookupCell, if_neg (by omega)]
      · subst hn; simp [lookupCell]
      · rw [lookupCell, lookupCell, if_neg (by omega), if_neg (by omega)]
    · rw [if_neg (by omega), if_neg (by omega)]
      split_ifs with hb hn hn
      · subst hn; rw [lookupCell, if_neg (by omega), lookupCell_below ht (by simp; omega), hb]
      · rfl
      · subst hn; simp [lookupCell]
      · rw [lookupCell, if_neg (by omega)]

theorem sortedCells_setCell {lo : Nat} {cells : List Host.Cell} (hc : SortedCells lo cells)
    {a : Nat} (ha : lo ≤ a) (b : Byte) : SortedCells lo (setCell a b cells) := by
  induction cells generalizing lo with
  | nil =>
    unfold setCell
    split_ifs with hb
    · exact hc
    · exact sortedCells_cons.2 ⟨ha, hb, by simp [SortedCells]⟩
  | cons c cells ih =>
    obtain ⟨hlo, hy, ht⟩ := sortedCells_cons.1 hc
    obtain ⟨x, y⟩ := c
    simp only [setCell]
    rcases lt_trichotomy x a with h | h | h
    · rw [if_pos h]
      exact sortedCells_cons.2 ⟨hlo, hy, ih ht h⟩
    · subst h
      simp only [lt_irrefl, if_false, if_true]
      split_ifs with hb
      · exact ht.mono (by simp at hlo ⊢; omega)
      · exact sortedCells_cons.2 ⟨hlo, hb, ht⟩
    · rw [if_neg (by omega), if_neg (by omega)]
      split_ifs with hb
      · exact hc
      · exact sortedCells_cons.2 ⟨ha, hb, sortedCells_cons.2 ⟨h, hy, ht⟩⟩

theorem mem_setCell {a : Nat} {b : Byte} {c : Host.Cell} {cells : List Host.Cell}
    (h : c ∈ setCell a b cells) : c = (a, b) ∨ c ∈ cells := by
  induction cells with
  | nil => unfold setCell at h; split_ifs at h <;> simp_all
  | cons d cells ih =>
    obtain ⟨x, y⟩ := d
    simp only [setCell] at h
    split_ifs at h <;> simp_all <;> tauto

theorem sortedCells_of_wf {m : Memory} (h : m.wf) : SortedCells 0 m.cells :=
  ⟨h.1, fun c hc => ⟨Nat.zero_le _, (h.2 c hc).2⟩⟩

@[simp] theorem setByte_size (m : Memory) (a : Nat) (b : Byte) : (m.setByte a b).size = m.size := rfl

@[simp] theorem storeWord_size (m : Memory) (a : Nat) (w : Word) : (m.storeWord a w).size = m.size := rfl

/-- A write keeps the canonical form. -/
theorem setByte_wf {m : Memory} (h : m.wf) {a : Nat} (ha : a < m.size) (b : Byte) :
    (m.setByte a b).wf := by
  have hk := sortedCells_setCell (sortedCells_of_wf h) (Nat.zero_le a) b
  refine ⟨hk.1, fun c hc => ⟨?_, (hk.2 c hc).2⟩⟩
  rcases mem_setCell hc with rfl | hc
  · exact ha
  · exact (h.2 c hc).1

/-- A cell reads as written; every other cell reads as before. -/
theorem byte_setByte {m : Memory} (h : m.wf) (a n : Nat) (b : Byte) :
    (m.setByte a b).byte n = if n = a then b else m.byte n :=
  lookupCell_setCell (sortedCells_of_wf h) a n b

theorem storeWord_wf {m : Memory} (h : m.wf) {a : Nat} (ha : a + 4 ≤ m.size) (w : Word) :
    (m.storeWord a w).wf := by
  unfold Memory.storeWord
  exact setByte_wf (setByte_wf (setByte_wf (setByte_wf h (by omega) _) (by simp; omega) _)
    (by simp; omega) _) (by simp; omega) _

/-- The four cells of a stored word, and every other cell as before. -/
theorem byte_storeWord {m : Memory} (h : m.wf) {a : Nat} (ha : a + 4 ≤ m.size) (w : Word) (n : Nat) :
    (m.storeWord a w).byte n =
      if n = a then w.extractLsb' 24 8 else if n = a + 1 then w.extractLsb' 16 8
      else if n = a + 2 then w.extractLsb' 8 8 else if n = a + 3 then w.extractLsb' 0 8
      else m.byte n := by
  have h1 := setByte_wf h (a := a) (by omega) (w.extractLsb' 24 8)
  have h2 := setByte_wf h1 (a := a + 1) (by simp; omega) (w.extractLsb' 16 8)
  have h3 := setByte_wf h2 (a := a + 2) (by simp; omega) (w.extractLsb' 8 8)
  rw [Memory.storeWord, byte_setByte h3, byte_setByte h2, byte_setByte h1, byte_setByte h]
  split_ifs <;> first | rfl | omega

theorem wordOfCells_extract (w : Word) :
    wordOfCells (w.extractLsb' 24 8) (w.extractLsb' 16 8) (w.extractLsb' 8 8) (w.extractLsb' 0 8) = w := by
  unfold wordOfCells
  ext i hi
  simp only [BitVec.getElem_append, BitVec.getElem_extractLsb']
  split_ifs <;> simp [← BitVec.getLsbD_eq_getElem] <;> (congr 1; omega)

theorem wordAt_storeWord {m : Memory} (h : m.wf) {a : Nat} (ha : a + 4 ≤ m.size) (w : Word) :
    (m.storeWord a w).wordAt a = w := by
  simp [Memory.wordAt, byte_storeWord h ha, wordOfCells_extract]

/-- A canonical memory is determined by its size and its cells. -/
theorem cells_ext {lo : Nat} {cs ds : List Host.Cell} (hc : SortedCells lo cs) (hd : SortedCells lo ds)
    (h : ∀ n, lookupCell n cs = lookupCell n ds) : cs = ds := by
  induction cs generalizing lo ds with
  | nil =>
    cases ds with
    | nil => rfl
    | cons d ds =>
      have := h d.1
      obtain ⟨-, hy, -⟩ := sortedCells_cons.1 hd
      simp [lookupCell] at this
      exact absurd this.symm hy
  | cons c cs ih =>
    obtain ⟨hlo, hy, ht⟩ := sortedCells_cons.1 hc
    cases ds with
    | nil =>
      have := h c.1
      simp [lookupCell] at this
      exact absurd this hy
    | cons d ds =>
      obtain ⟨hlo', hy', ht'⟩ := sortedCells_cons.1 hd
      obtain ⟨x, y⟩ := c
      obtain ⟨x', y'⟩ := d
      simp only at hy hy' ht ht'
      have hxx : x = x' := by
        rcases lt_trichotomy x x' with hl | hl | hl
        · have := h x
          rw [lookupCell, if_pos rfl, lookupCell, if_neg (by omega),
            lookupCell_below ht' (by omega)] at this
          exact absurd this hy
        · exact hl
        · have := h x'
          rw [lookupCell, if_neg (by omega), lookupCell_below ht (by omega), lookupCell,
            if_pos rfl] at this
          exact absurd this.symm hy'
      subst hxx
      have hyy : y = y' := by simpa [lookupCell] using h x
      subst hyy
      congr 1
      refine ih ht ht' fun n => ?_
      by_cases hn : x = n
      · subst hn; rw [lookupCell_below ht (by omega), lookupCell_below ht' (by omega)]
      · simpa [lookupCell, hn] using h n

theorem memory_ext {m m' : Memory} (h : m.wf) (h' : m'.wf) (hs : m.size = m'.size)
    (hb : ∀ n, m.byte n = m'.byte n) : m = m' := by
  have hcells := cells_ext (sortedCells_of_wf h) (sortedCells_of_wf h') hb
  obtain ⟨sz, cells⟩ := m
  obtain ⟨sz', cells'⟩ := m'
  simp only at hs hcells
  subst hs hcells
  rfl

/-! ### Loaded memories -/

theorem cellsFrom_spec (a : Nat) (bytes : List Byte) :
    SortedCells a (cellsFrom a bytes) ∧ ∀ c ∈ cellsFrom a bytes, c.1 < a + bytes.length := by
  induction bytes generalizing a with
  | nil => simp [cellsFrom, SortedCells]
  | cons b bytes ih =>
    obtain ⟨hc, hl⟩ := ih (a + 1)
    unfold cellsFrom
    split_ifs with hb
    · exact ⟨hc.mono (by omega), fun c m => by have := hl c m; simp; omega⟩
    · refine ⟨sortedCells_cons.2 ⟨le_refl a, hb, hc⟩, fun c m => ?_⟩
      rcases List.mem_cons.1 m with rfl | m
      · simp
      · have := hl c m; simp; omega

theorem lookupCell_laid (a n : Nat) (bytes : List Byte) :
    lookupCell (a + n) (cellsFrom a bytes) = bytes.getD n unsetCell := by
  induction bytes generalizing a n with
  | nil => simp [cellsFrom, lookupCell]
  | cons b bytes ih =>
    have hlow : ∀ k, k < a + 1 → lookupCell k (cellsFrom (a + 1) bytes) = unsetCell := fun k hk =>
      lookupCell_below (cellsFrom_spec (a + 1) bytes).1 hk
    unfold cellsFrom
    cases n with
    | zero =>
      split_ifs with hb
      · rw [hlow _ (by omega)]; simp [hb]
      · simp [lookupCell]
    | succ n =>
      have := ih (a + 1) n
      rw [show a + 1 + n = a + (n + 1) by omega] at this
      split_ifs with hb
      · rw [this]; simp
      · rw [lookupCell, if_neg (by omega), this]; simp

@[simp] theorem ofBytes_size (size : Nat) (bytes : List Byte) : (Memory.ofBytes size bytes).size = size := rfl

theorem byte_ofBytes (size : Nat) (bytes : List Byte) (n : Nat) :
    (Memory.ofBytes size bytes).byte n = bytes.getD n unsetCell := by
  have := lookupCell_laid 0 n bytes
  rwa [Nat.zero_add] at this

theorem ofBytes_wf {size : Nat} {bytes : List Byte} (h : bytes.length ≤ size) :
    (Memory.ofBytes size bytes).wf := by
  obtain ⟨hc, hl⟩ := cellsFrom_spec 0 bytes
  exact ⟨hc.1, fun c m => ⟨by have := hl c m; simp; omega, (hc.2 c m).2⟩⟩

theorem placeWord_wf {m : Memory} (h : m.wf) (a : Nat) (w : Word) : (m.placeWord a w).wf := by
  have hg : ({ m with size := max m.size (a + 4) } : Memory).wf :=
    ⟨h.1, fun c hc => ⟨lt_of_lt_of_le (h.2 c hc).1 (le_max_left _ _), (h.2 c hc).2⟩⟩
  exact storeWord_wf hg (a := a) (by simp) w

end Sys2Proof.Machine
end

