-- ==== Sys2Proof/Laws/State.lean ====
section
/-! SUPPORT. One lemma per field per update of State, true by definition. -/

namespace Sys2Proof.Machine

variable (s : State)

@[simp] theorem setHalted_imem : (setHalted s).imem = s.imem := rfl
@[simp] theorem setHalted_dmem : (setHalted s).dmem = s.dmem := rfl
@[simp] theorem setHalted_rf : (setHalted s).rf = s.rf := rfl
@[simp] theorem setHalted_cur : (setHalted s).cur = s.cur := rfl
@[simp] theorem setHalted_nxt : (setHalted s).nxt = s.nxt := rfl
@[simp] theorem setHalted_cycle : (setHalted s).cycle = s.cycle := rfl
@[simp] theorem setHalted_halted : (setHalted s).halted = true := rfl
@[simp] theorem setHalted_fault : (setHalted s).fault = s.fault := rfl
@[simp] theorem setHalted_rfTrace : (setHalted s).rfTrace = s.rfTrace := rfl
@[simp] theorem setHalted_stTrace : (setHalted s).stTrace = s.stTrace := rfl

@[simp] theorem copyLatches_imem : (copyLatches s).imem = s.imem := rfl
@[simp] theorem copyLatches_dmem : (copyLatches s).dmem = s.dmem := rfl
@[simp] theorem copyLatches_rf : (copyLatches s).rf = s.rf := rfl
@[simp] theorem copyLatches_cur : (copyLatches s).cur = s.cur := rfl
@[simp] theorem copyLatches_nxt : (copyLatches s).nxt = s.cur := rfl
@[simp] theorem copyLatches_cycle : (copyLatches s).cycle = s.cycle := rfl
@[simp] theorem copyLatches_halted : (copyLatches s).halted = s.halted := rfl
@[simp] theorem copyLatches_fault : (copyLatches s).fault = s.fault := rfl
@[simp] theorem copyLatches_rfTrace : (copyLatches s).rfTrace = s.rfTrace := rfl
@[simp] theorem copyLatches_stTrace : (copyLatches s).stTrace = s.stTrace := rfl

@[simp] theorem commitLatches_imem : (commitLatches s).imem = s.imem := rfl
@[simp] theorem commitLatches_dmem : (commitLatches s).dmem = s.dmem := rfl
@[simp] theorem commitLatches_rf : (commitLatches s).rf = s.rf := rfl
@[simp] theorem commitLatches_cur : (commitLatches s).cur = s.nxt := rfl
@[simp] theorem commitLatches_nxt : (commitLatches s).nxt = s.nxt := rfl
@[simp] theorem commitLatches_cycle : (commitLatches s).cycle = s.cycle := rfl
@[simp] theorem commitLatches_halted : (commitLatches s).halted = s.halted := rfl
@[simp] theorem commitLatches_fault : (commitLatches s).fault = s.fault := rfl
@[simp] theorem commitLatches_rfTrace : (commitLatches s).rfTrace = s.rfTrace := rfl
@[simp] theorem commitLatches_stTrace : (commitLatches s).stTrace = s.stTrace := rfl

@[simp] theorem countCycle_imem : (countCycle s).imem = s.imem := rfl
@[simp] theorem countCycle_dmem : (countCycle s).dmem = s.dmem := rfl
@[simp] theorem countCycle_rf : (countCycle s).rf = s.rf := rfl
@[simp] theorem countCycle_cur : (countCycle s).cur = s.cur := rfl
@[simp] theorem countCycle_nxt : (countCycle s).nxt = s.nxt := rfl
@[simp] theorem countCycle_cycle : (countCycle s).cycle = s.cycle + 1 := rfl
@[simp] theorem countCycle_halted : (countCycle s).halted = s.halted := rfl
@[simp] theorem countCycle_fault : (countCycle s).fault = s.fault := rfl
@[simp] theorem countCycle_rfTrace : (countCycle s).rfTrace = s.rfTrace := rfl
@[simp] theorem countCycle_stTrace : (countCycle s).stTrace = s.stTrace := rfl

@[simp] theorem rfTraceDump_imem : (rfTraceDump s).imem = s.imem := rfl
@[simp] theorem rfTraceDump_dmem : (rfTraceDump s).dmem = s.dmem := rfl
@[simp] theorem rfTraceDump_rf : (rfTraceDump s).rf = s.rf := rfl
@[simp] theorem rfTraceDump_cur : (rfTraceDump s).cur = s.cur := rfl
@[simp] theorem rfTraceDump_nxt : (rfTraceDump s).nxt = s.nxt := rfl
@[simp] theorem rfTraceDump_cycle : (rfTraceDump s).cycle = s.cycle := rfl
@[simp] theorem rfTraceDump_halted : (rfTraceDump s).halted = s.halted := rfl
@[simp] theorem rfTraceDump_fault : (rfTraceDump s).fault = s.fault := rfl
@[simp] theorem rfTraceDump_rfTrace : (rfTraceDump s).rfTrace =
    if s.cycle = 0 then [{ cycle := s.cycle, regs := regSnapshot s.rf }]
      else s.rfTrace ++ [{ cycle := s.cycle, regs := regSnapshot s.rf }] := rfl
@[simp] theorem rfTraceDump_stTrace : (rfTraceDump s).stTrace = s.stTrace := rfl

@[simp] theorem stTraceDump_imem : (stTraceDump s).imem = s.imem := rfl
@[simp] theorem stTraceDump_dmem : (stTraceDump s).dmem = s.dmem := rfl
@[simp] theorem stTraceDump_rf : (stTraceDump s).rf = s.rf := rfl
@[simp] theorem stTraceDump_cur : (stTraceDump s).cur = s.cur := rfl
@[simp] theorem stTraceDump_nxt : (stTraceDump s).nxt = s.nxt := rfl
@[simp] theorem stTraceDump_cycle : (stTraceDump s).cycle = s.cycle := rfl
@[simp] theorem stTraceDump_halted : (stTraceDump s).halted = s.halted := rfl
@[simp] theorem stTraceDump_fault : (stTraceDump s).fault = s.fault := rfl
@[simp] theorem stTraceDump_rfTrace : (stTraceDump s).rfTrace = s.rfTrace := rfl
@[simp] theorem stTraceDump_stTrace : (stTraceDump s).stTrace =
    if s.cycle = 0 then [{ cycle := s.cycle, latches := s.nxt }]
      else s.stTrace ++ [{ cycle := s.cycle, latches := s.nxt }] := rfl

@[simp] theorem raiseFault_imem (f : Fault) : (raiseFault s f).imem = s.imem := rfl
@[simp] theorem raiseFault_dmem (f : Fault) : (raiseFault s f).dmem = s.dmem := rfl
@[simp] theorem raiseFault_rf (f : Fault) : (raiseFault s f).rf = s.rf := rfl
@[simp] theorem raiseFault_cur (f : Fault) : (raiseFault s f).cur = s.cur := rfl
@[simp] theorem raiseFault_nxt (f : Fault) : (raiseFault s f).nxt = s.nxt := rfl
@[simp] theorem raiseFault_cycle (f : Fault) : (raiseFault s f).cycle = s.cycle := rfl
@[simp] theorem raiseFault_halted (f : Fault) : (raiseFault s f).halted = s.halted := rfl
@[simp] theorem raiseFault_fault (f : Fault) : (raiseFault s f).fault = some f := rfl
@[simp] theorem raiseFault_rfTrace (f : Fault) : (raiseFault s f).rfTrace = s.rfTrace := rfl
@[simp] theorem raiseFault_stTrace (f : Fault) : (raiseFault s f).stTrace = s.stTrace := rfl

@[simp] theorem writeNextNop_imem (b : Bool) : (writeNextNop s b).imem = s.imem := rfl
@[simp] theorem writeNextNop_dmem (b : Bool) : (writeNextNop s b).dmem = s.dmem := rfl
@[simp] theorem writeNextNop_rf (b : Bool) : (writeNextNop s b).rf = s.rf := rfl
@[simp] theorem writeNextNop_cur (b : Bool) : (writeNextNop s b).cur = s.cur := rfl
@[simp] theorem writeNextNop_nxt (b : Bool) : (writeNextNop s b).nxt = { s.nxt with IF := { s.nxt.IF with nop := b } } := rfl
@[simp] theorem writeNextNop_cycle (b : Bool) : (writeNextNop s b).cycle = s.cycle := rfl
@[simp] theorem writeNextNop_halted (b : Bool) : (writeNextNop s b).halted = s.halted := rfl
@[simp] theorem writeNextNop_fault (b : Bool) : (writeNextNop s b).fault = s.fault := rfl
@[simp] theorem writeNextNop_rfTrace (b : Bool) : (writeNextNop s b).rfTrace = s.rfTrace := rfl
@[simp] theorem writeNextNop_stTrace (b : Bool) : (writeNextNop s b).stTrace = s.stTrace := rfl

@[simp] theorem writeLatch_imem (w : LatchWrite) : (writeLatch s w).imem = s.imem := rfl
@[simp] theorem writeLatch_dmem (w : LatchWrite) : (writeLatch s w).dmem = s.dmem := rfl
@[simp] theorem writeLatch_rf (w : LatchWrite) : (writeLatch s w).rf = s.rf := rfl
@[simp] theorem writeLatch_cur (w : LatchWrite) : (writeLatch s w).cur = s.cur := rfl
@[simp] theorem writeLatch_nxt (w : LatchWrite) : (writeLatch s w).nxt = applyLatchWrite s.nxt w := rfl
@[simp] theorem writeLatch_cycle (w : LatchWrite) : (writeLatch s w).cycle = s.cycle := rfl
@[simp] theorem writeLatch_halted (w : LatchWrite) : (writeLatch s w).halted = s.halted := rfl
@[simp] theorem writeLatch_fault (w : LatchWrite) : (writeLatch s w).fault = s.fault := rfl
@[simp] theorem writeLatch_rfTrace (w : LatchWrite) : (writeLatch s w).rfTrace = s.rfTrace := rfl
@[simp] theorem writeLatch_stTrace (w : LatchWrite) : (writeLatch s w).stTrace = s.stTrace := rfl

/-! The opening and the closing of a cycle, as a whole. -/

@[simp] theorem openCycle_imem : (openCycle s).imem = s.imem := by
  unfold openCycle ifNopCheck; split <;> rfl
@[simp] theorem openCycle_dmem : (openCycle s).dmem = s.dmem := by
  unfold openCycle ifNopCheck; split <;> rfl
@[simp] theorem openCycle_rf : (openCycle s).rf = s.rf := by
  unfold openCycle ifNopCheck; split <;> rfl
@[simp] theorem openCycle_cur : (openCycle s).cur = s.cur := by
  unfold openCycle ifNopCheck; split <;> rfl
@[simp] theorem openCycle_nxt : (openCycle s).nxt = s.cur := by
  unfold openCycle ifNopCheck; split <;> rfl
@[simp] theorem openCycle_cycle : (openCycle s).cycle = s.cycle := by
  unfold openCycle ifNopCheck; split <;> rfl
@[simp] theorem openCycle_halted : (openCycle s).halted = (s.halted || s.cur.IF.nop) := by
  cases h : s.cur.IF.nop <;> simp [openCycle, ifNopCheck, h]
@[simp] theorem openCycle_fault : (openCycle s).fault = s.fault := by
  unfold openCycle ifNopCheck; split <;> rfl
@[simp] theorem openCycle_rfTrace : (openCycle s).rfTrace = s.rfTrace := by
  unfold openCycle ifNopCheck; split <;> rfl
@[simp] theorem openCycle_stTrace : (openCycle s).stTrace = s.stTrace := by
  unfold openCycle ifNopCheck; split <;> rfl
@[simp] theorem closeCycle_imem : (closeCycle s).imem = s.imem := rfl
@[simp] theorem closeCycle_dmem : (closeCycle s).dmem = s.dmem := rfl
@[simp] theorem closeCycle_rf : (closeCycle s).rf = s.rf := rfl
@[simp] theorem closeCycle_cur : (closeCycle s).cur = s.nxt := rfl
@[simp] theorem closeCycle_nxt : (closeCycle s).nxt = s.nxt := rfl
@[simp] theorem closeCycle_cycle : (closeCycle s).cycle = s.cycle + 1 := rfl
@[simp] theorem closeCycle_halted : (closeCycle s).halted = s.halted := rfl
@[simp] theorem closeCycle_fault : (closeCycle s).fault = s.fault := rfl
@[simp] theorem closeCycle_rfTrace : (closeCycle s).rfTrace = (rfTraceDump s).rfTrace := rfl
@[simp] theorem closeCycle_stTrace : (closeCycle s).stTrace = (stTraceDump s).stTrace := rfl

end Sys2Proof.Machine
end

