-- ==== Sys2Proof/Laws/Ops.lean ====
section
/-! SUPPORT. What each port answers: one lemma per port, and per case where it can fault. -/

namespace Sys2Proof.Machine

/-! ### Register file -/

@[simp] theorem regValue_zero (rf : Vector Word 32) : regValue rf 0 = 0 := rfl

theorem regValue_pos (rf : Vector Word 32) {i : Nat} (h0 : i ≠ 0) (hi : i < 32) :
    regValue rf i = signed rf[i] := by
  simp [regValue, h0, hi]

theorem representable_regValue (rf : Vector Word 32) (i : Nat) :
    representable (regValue rf i) 32 = true := by
  unfold regValue; split_ifs
  · decide
  · exact representable_signed _

/-- Reading a register of the profile never faults (R160). -/
theorem rfRead_reg (s : State) (r : RegIx) : rfRead s r.val = .ok (regValue s.rf r.val) := by
  have := r.isLt
  simp [rfRead]; omega

theorem rfRead_error (s : State) {i : Int} (h : i < 0 ∨ 31 < i) :
    rfRead s i = .error (.regIndex i) := by simp [rfRead, h]

/-- Writing a representable value to a register of the profile never faults (R161). -/
theorem rfWrite_reg (s : State) (r : RegIx) {v : Int} (h : representable v 32 = true) :
    rfWrite s r.val v =
      .ok (if r = 0 then s else { s with rf := s.rf.set r.val (BitVec.ofInt 32 v) r.isLt }) := by
  have hr := r.isLt
  have h0 : ((r.val : Int) = 0) ↔ r = 0 := by
    rw [Fin.ext_iff]; simp
  unfold rfWrite
  rw [if_neg (by omega)]
  by_cases hz : r = 0
  · simp [hz]
  · simp only [h0, hz, if_false, encode32_ok h]
    congr 2
    apply Vector.ext
    intro i hi
    simp [Vector.getElem_setIfInBounds, Vector.getElem_set]

/-- What a register reads as after a write that answers. -/
theorem rfWrite_inv {s t : State} {i v : Int} (h : rfWrite s i v = .ok t) :
    0 ≤ i ∧ i ≤ 31 ∧ (i = 0 → t = s) ∧
      (i ≠ 0 → representable v 32 = true ∧
        t = { s with rf := s.rf.setIfInBounds i.toNat (BitVec.ofInt 32 v) }) := by
  unfold rfWrite at h
  split_ifs at h with h1 h2
  · cases h; exact ⟨by omega, by omega, fun _ => rfl, fun hn => absurd h2 hn⟩
  · by_cases hv : representable v 32 = true
    · rw [encode32_ok hv] at h; cases h
      exact ⟨by omega, by omega, fun hz => absurd hz h2, fun _ => ⟨hv, rfl⟩⟩
    · rw [encode32_error (by simpa using hv)] at h; cases h

theorem getElem_regSnapshot (rf : Vector Word 32) (i : Nat) (h : i < 32) :
    (regSnapshot rf)[i] = if i = 0 then 0 else rf[i] := by
  rw [regSnapshot, Vector.getElem_ofFn]
  rcases i with _ | i <;> simp [Fin.ext_iff]

theorem signed_regSnapshot (rf : Vector Word 32) (i : Nat) (h : i < 32) :
    signed (regSnapshot rf)[i] = regValue rf i := by
  rw [getElem_regSnapshot]
  by_cases hi : i = 0
  · subst hi; simp [signed]
  · rw [if_neg hi, regValue_pos rf hi h]

/-! ### Memories -/

theorem iFetch_ok {m : Memory} {a : Nat} (h : a + 4 ≤ m.size) : iFetch m a = .ok (m.wordAt a) := by
  simp [iFetch]; omega

theorem iFetch_error {m : Memory} {a : Nat} (h : m.size < a + 4) :
    iFetch m a = .error (.fetchOutOfRange a) := by simp [iFetch, h]

theorem iFetch_inv {m : Memory} {a : Nat} {w : Word} (h : iFetch m a = .ok w) :
    a + 4 ≤ m.size ∧ w = m.wordAt a := by
  unfold iFetch at h
  split_ifs at h with hs
  cases h
  exact ⟨by omega, rfl⟩

theorem outOfBounds_iff (m : Memory) (a : Int) :
    outOfBounds m a = true ↔ a < 0 ∨ (m.size : Int) < a + 4 := by simp [outOfBounds]

theorem memRead_ok {s : State} {a : Int} (h0 : 0 ≤ a) (h : a + 4 ≤ s.dmem.size) :
    memRead s a = .ok (signed (s.dmem.wordAt a.toNat)) := by
  simp [memRead, outOfBounds]; omega

theorem memRead_error {s : State} {a : Int} (h : a < 0 ∨ (s.dmem.size : Int) < a + 4) :
    memRead s a = .error (.dataOutOfBounds a) := by
  simp [memRead, outOfBounds, h]

theorem memWrite_ok {s : State} {a v : Int} (h0 : 0 ≤ a) (h : a + 4 ≤ s.dmem.size)
    (hv : representable v 32 = true) :
    memWrite s a v = .ok { s with dmem := s.dmem.storeWord a.toNat (BitVec.ofInt 32 v) } := by
  have : outOfBounds s.dmem a = false := by simp [outOfBounds]; omega
  simp [memWrite, this, encode32_ok hv]

theorem memWrite_error {s : State} {a v : Int} (h : a < 0 ∨ (s.dmem.size : Int) < a + 4) :
    memWrite s a v = .error (.dataOutOfBounds a) := by
  simp [memWrite, outOfBounds, h]

theorem memWrite_inv {s t : State} {a v : Int} (h : memWrite s a v = .ok t) :
    0 ≤ a ∧ a + 4 ≤ s.dmem.size ∧ representable v 32 = true ∧
      t = { s with dmem := s.dmem.storeWord a.toNat (BitVec.ofInt 32 v) } := by
  unfold memWrite at h
  split_ifs at h with hb
  have hb' : ¬ (a < 0 ∨ (s.dmem.size : Int) < a + 4) := by
    rw [← outOfBounds_iff]; exact hb
  by_cases hv : representable v 32 = true
  · rw [encode32_ok hv] at h; cases h
    exact ⟨by omega, by omega, hv, rfl⟩
  · rw [encode32_error (by simpa using hv)] at h; cases h

/-! ### The next program counter -/

theorem writeNextPC_ok (s : State) {n : Nat} (h : n < 2 ^ 32) :
    writeNextPC s n =
      .ok { s with nxt := { s.nxt with IF := { s.nxt.IF with PC := BitVec.ofNat 32 n } } } := by
  simp [writeNextPC]; omega

theorem writeNextPC_inv {s t : State} {v : Int} (h : writeNextPC s v = .ok t) :
    0 ≤ v ∧ v < 2 ^ 32 ∧
      t = { s with nxt := { s.nxt with IF := { s.nxt.IF with PC := BitVec.ofNat 32 v.toNat } } } := by
  unfold writeNextPC at h
  split_ifs at h with hv
  cases h
  exact ⟨by omega, by omega, rfl⟩

theorem successorOf_lt (pc : Word) : successorOf pc < 2 ^ 32 := Nat.mod_lt _ (by norm_num)

theorem targetOf_lt (pc : Word) (imm : Int) : targetOf pc imm < 2 ^ 32 := by
  have h1 := Int.emod_nonneg ((pc.toNat : Int) + imm) (b := 2 ^ 32) (by norm_num)
  have h2 := Int.emod_lt_of_pos ((pc.toNat : Int) + imm) (b := 2 ^ 32) (by norm_num)
  unfold targetOf
  omega

theorem effectiveAddress_nonneg (base imm : Int) : 0 ≤ effectiveAddress base imm :=
  Int.emod_nonneg _ (by norm_num)

end Sys2Proof.Machine
end

