-- ==== Sys2Proof/Laws/Executor.lean ====
section
/-! SUPPORT. What any executor can do, packaged once: a property that every port keeps holds after
every port program that answers. -/

namespace Sys2Proof.Machine

/-- The induction over port programs: what each writing port keeps, the program keeps. -/
theorem runPorts_preserves {P : State → Prop}
    (hreg : ∀ s t i v, P s → rfWrite s i v = .ok t → P t)
    (hmem : ∀ s t a v, P s → memWrite s a v = .ok t → P t)
    (hpc : ∀ s t v, P s → writeNextPC s v = .ok t → P t)
    (hnop : ∀ s b, P s → P (writeNextNop s b))
    (hfield : ∀ s w, P s → P (writeLatch s w))
    {p : PortProgram} {s t : State} (h : runPorts p s = .next t) (hs : P s) : P t := by
  induction p generalizing s with
  | done => cases h; exact hs
  | fail reason => cases h
  | misaligned target => cases h
  | readReg i rest ih =>
    simp only [runPorts] at h
    split at h
    · exact ih _ h hs
    · cases h
  | writeReg i v rest ih =>
    simp only [runPorts] at h
    split at h
    · exact ih h (hreg _ _ _ _ hs ‹_›)
    · cases h
  | readMem a rest ih =>
    simp only [runPorts] at h
    split at h
    · exact ih _ h hs
    · cases h
  | writeMem a v rest ih =>
    simp only [runPorts] at h
    split at h
    · exact ih h (hmem _ _ _ _ hs ‹_›)
    · cases h
  | readCur rest ih => exact ih _ h hs
  | writeNop b rest ih => exact ih h (hnop _ _ hs)
  | writePC v rest ih =>
    simp only [runPorts] at h
    split at h
    · exact ih h (hpc _ _ _ hs ‹_›)
    · cases h
  | writeField w rest ih => exact ih h (hfield _ _ hs)

/-- No executor is refused: it completes or faults. -/
theorem runPorts_not_refused (p : PortProgram) (s : State) (r : Refusal) :
    runPorts p s ≠ .refused r := by
  induction p generalizing s with
  | done => simp [runPorts]
  | fail reason => simp [runPorts]
  | misaligned target => simp [runPorts]
  | readReg i rest ih => simp only [runPorts]; split <;> simp [ih]
  | writeReg i v rest ih => simp only [runPorts]; split <;> simp [ih]
  | readMem a rest ih => simp only [runPorts]; split <;> simp [ih]
  | writeMem a v rest ih => simp only [runPorts]; split <;> simp [ih]
  | readCur rest ih => exact ih _ _
  | writeNop b rest ih => exact ih _
  | writePC v rest ih => simp only [runPorts]; split <;> simp [ih]
  | writeField w rest ih => exact ih _

/-! What each writing port keeps. -/

theorem rfWrite_slot {s t : State} {i v : Int} (h : rfWrite s i v = .ok t) : t.rf[0] = s.rf[0] := by
  obtain ⟨h0, -, hz, hp⟩ := rfWrite_inv h
  by_cases hi : i = 0
  · rw [hz hi]
  · rw [(hp hi).2]
    simp only [Vector.getElem_setIfInBounds]
    rw [if_neg (by omega)]

theorem memWrite_wf {s t : State} {a v : Int} (h : memWrite s a v = .ok t) (hw : s.dmem.wf) :
    t.dmem.wf ∧ t.dmem.size = s.dmem.size := by
  obtain ⟨h0, hb, -, rfl⟩ := memWrite_inv h
  exact ⟨storeWord_wf hw (by omega) _, rfl⟩

end Sys2Proof.Machine
end

