-- ==== Sys2Proof/Laws/Loop.lean ====
section
/-! SUPPORT. What a cycle can do, said once: it is refused, it faults, or it opens, fetches, acts and
closes. -/

namespace Sys2Proof.Machine

@[simp] theorem closeOutcome_next (t : State) : closeOutcome (.next t) = .next (closeCycle t) := rfl
@[simp] theorem closeOutcome_fault (f : Fault) : closeOutcome (.fault f) = .fault f := rfl
@[simp] theorem closeOutcome_refused (r : Refusal) : closeOutcome (.refused r) = .refused r := rfl

theorem enabled_iff (s : State) : enabled s = true ↔ s.halted = false ∧ s.fault = none := by
  simp [enabled]

theorem noStepReason_none_iff (s : State) : noStepReason s = none ↔ enabled s = true := by
  unfold noStepReason enabled
  cases s.fault <;> cases s.halted <;> simp

variable {act : Word → State → Host.Outcome State Fault Refusal} {s t : State}

/-- The cycle of an enabled state whose fetch answers. -/
theorem cycleWith_fetched (he : enabled s = true) {w : Word}
    (hf : iFetch s.imem s.cur.IF.PC.toNat = .ok w) :
    cycleWith act s = closeOutcome (act w (openCycle s)) := by
  simp only [cycleWith, (noStepReason_none_iff s).2 he, openCycle_imem, openCycle_cur, hf]

/-- The cycle of an enabled state whose fetch faults. -/
theorem cycleWith_fetch_fault (he : enabled s = true) {f : Fault}
    (hf : iFetch s.imem s.cur.IF.PC.toNat = .error f) : cycleWith act s = .fault f := by
  simp only [cycleWith, (noStepReason_none_iff s).2 he, openCycle_imem, openCycle_cur, hf]

/-- A state that is not enabled has no step. -/
theorem cycleWith_not_enabled (he : enabled s = false) :
    ∃ r, noStepReason s = some r ∧ cycleWith act s = .refused r := by
  cases h : noStepReason s with
  | none => rw [(noStepReason_none_iff s).1 h] at he; cases he
  | some r => exact ⟨r, rfl, by simp only [cycleWith, h]⟩

/-- What a completed cycle did. -/
theorem cycleWith_next (h : cycleWith act s = .next t) :
    enabled s = true ∧ ∃ w u, iFetch s.imem s.cur.IF.PC.toNat = .ok w ∧
      act w (openCycle s) = .next u ∧ t = closeCycle u := by
  cases he : enabled s with
  | false =>
    obtain ⟨r, -, hr⟩ := cycleWith_not_enabled (act := act) he
    rw [hr] at h; cases h
  | true =>
    refine ⟨rfl, ?_⟩
    cases hf : iFetch s.imem s.cur.IF.PC.toNat with
    | error f => rw [cycleWith_fetch_fault he hf] at h; cases h
    | ok w =>
      rw [cycleWith_fetched he hf] at h
      cases ha : act w (openCycle s) with
      | next u => rw [ha] at h; cases h; exact ⟨w, u, rfl, ha, rfl⟩
      | fault f => rw [ha] at h; cases h
      | refused r => rw [ha] at h; cases h

/-- Two cycles whose actions agree on the opened state agree. -/
theorem cycleWith_congr {act' : Word → State → Host.Outcome State Fault Refusal}
    (h : ∀ w, act w (openCycle s) = act' w (openCycle s)) : cycleWith act s = cycleWith act' s := by
  simp only [cycleWith, h]

end Sys2Proof.Machine
end

