-- ==== Sys2Proof/Laws/PerInstr.lean ====
section
/-! SUPPORT. Facts about every instruction as syntax, one lemma per constructor. -/

namespace Sys2Proof.Laws

/-- The mask and the pattern of an instruction's row, written out from spec/30_encoding.md R96. -/
def fixedBits : Instr → Word × Word
  | .add _ _ _ => (0xFE00707F, 0x00000033)
  | .sub _ _ _ => (0xFE00707F, 0x40000033)
  | .xor _ _ _ => (0xFE00707F, 0x00004033)
  | .or _ _ _ => (0xFE00707F, 0x00006033)
  | .and _ _ _ => (0xFE00707F, 0x00007033)
  | .addi _ _ _ => (0x0000707F, 0x00000013)
  | .xori _ _ _ => (0x0000707F, 0x00004013)
  | .ori _ _ _ => (0x0000707F, 0x00006013)
  | .andi _ _ _ => (0x0000707F, 0x00007013)
  | .lw _ _ _ => (0x0000707F, 0x00002003)
  | .sw _ _ _ => (0x0000707F, 0x00002023)
  | .beq _ _ _ => (0x0000707F, 0x00000063)
  | .bne _ _ _ => (0x0000707F, 0x00001063)
  | .jal _ _ => (0x0000007F, 0x0000006F)
  | .halt => (0xFFFFFFFF, 0xFFFFFFFF)

/-- The encoded word carries the fixed bits of its row. -/
def EncodingMatches.Statement (i : Instr) : Prop := encode i &&& (fixedBits i).1 = (fixedBits i).2

variable (funct7 : BitVec 7) (funct3 : BitVec 3) (opcode : BitVec 7) (rd rs1 rs2 : RegIx)

/-! The fixed bits of each format: its codes stay, its operand fields are masked away. -/

theorem encodeR_fixed : encodeR funct7 funct3 opcode rd rs1 rs2 &&& 0xFE00707F =
    funct7 ++ 0#5 ++ 0#5 ++ funct3 ++ 0#5 ++ opcode := by
  have hm : (0xFE00707F : Word) =
    BitVec.allOnes 7 ++ 0#5 ++ 0#5 ++ BitVec.allOnes 3 ++ 0#5 ++ BitVec.allOnes 7 := by decide
  rw [encodeR, hm, BitVec.and_append, BitVec.and_append, BitVec.and_append, BitVec.and_append,
    BitVec.and_append]
  simp only [BitVec.and_allOnes, BitVec.and_zero]

theorem encodeI_fixed (imm : Int) : encodeI funct3 opcode rd rs1 imm &&& 0x0000707F =
    0#12 ++ 0#5 ++ funct3 ++ 0#5 ++ opcode := by
  have hm : (0x0000707F : Word) =
    0#12 ++ 0#5 ++ BitVec.allOnes 3 ++ 0#5 ++ BitVec.allOnes 7 := by decide
  rw [encodeI, hm, BitVec.and_append, BitVec.and_append, BitVec.and_append, BitVec.and_append]
  simp only [BitVec.and_allOnes, BitVec.and_zero]

theorem encodeS_fixed (imm : BitVec 12) : encodeS funct3 opcode rs1 rs2 imm &&& 0x0000707F =
    0#7 ++ 0#5 ++ 0#5 ++ funct3 ++ 0#5 ++ opcode := by
  have hm : (0x0000707F : Word) =
    0#7 ++ 0#5 ++ 0#5 ++ BitVec.allOnes 3 ++ 0#5 ++ BitVec.allOnes 7 := by decide
  rw [encodeS, hm, BitVec.and_append, BitVec.and_append, BitVec.and_append, BitVec.and_append,
    BitVec.and_append]
  simp only [BitVec.and_allOnes, BitVec.and_zero]

theorem encodeB_fixed (imm : BitVec 13) : encodeB funct3 opcode rs1 rs2 imm &&& 0x0000707F =
    0#1 ++ 0#6 ++ 0#5 ++ 0#5 ++ funct3 ++ 0#4 ++ 0#1 ++ opcode := by
  have hm : (0x0000707F : Word) =
    0#1 ++ 0#6 ++ 0#5 ++ 0#5 ++ BitVec.allOnes 3 ++ 0#4 ++ 0#1 ++ BitVec.allOnes 7 := by decide
  rw [encodeB, hm, BitVec.and_append, BitVec.and_append, BitVec.and_append, BitVec.and_append,
    BitVec.and_append, BitVec.and_append, BitVec.and_append]
  simp only [BitVec.and_allOnes, BitVec.and_zero]

theorem encodeJ_fixed (imm : BitVec 21) : encodeJ opcode rd imm &&& 0x0000007F =
    0#1 ++ 0#10 ++ 0#1 ++ 0#8 ++ 0#5 ++ opcode := by
  have hm : (0x0000007F : Word) =
    0#1 ++ 0#10 ++ 0#1 ++ 0#8 ++ 0#5 ++ BitVec.allOnes 7 := by decide
  rw [encodeJ, hm, BitVec.and_append, BitVec.and_append, BitVec.and_append, BitVec.and_append,
    BitVec.and_append]
  simp only [BitVec.and_allOnes, BitVec.and_zero]

theorem EncodingMatches.add (rd rs1 rs2 : RegIx) : EncodingMatches.Statement (.add rd rs1 rs2) :=
  (encodeR_fixed _ _ _ rd rs1 rs2).trans rfl

theorem EncodingMatches.sub (rd rs1 rs2 : RegIx) : EncodingMatches.Statement (.sub rd rs1 rs2) :=
  (encodeR_fixed _ _ _ rd rs1 rs2).trans rfl

theorem EncodingMatches.xor (rd rs1 rs2 : RegIx) : EncodingMatches.Statement (.xor rd rs1 rs2) :=
  (encodeR_fixed _ _ _ rd rs1 rs2).trans rfl

theorem EncodingMatches.or (rd rs1 rs2 : RegIx) : EncodingMatches.Statement (.or rd rs1 rs2) :=
  (encodeR_fixed _ _ _ rd rs1 rs2).trans rfl

theorem EncodingMatches.and (rd rs1 rs2 : RegIx) : EncodingMatches.Statement (.and rd rs1 rs2) :=
  (encodeR_fixed _ _ _ rd rs1 rs2).trans rfl

theorem EncodingMatches.addi (rd rs1 : RegIx) (imm : Int) : EncodingMatches.Statement (.addi rd rs1 imm) :=
  (encodeI_fixed _ _ rd rs1 imm).trans rfl

theorem EncodingMatches.xori (rd rs1 : RegIx) (imm : Int) : EncodingMatches.Statement (.xori rd rs1 imm) :=
  (encodeI_fixed _ _ rd rs1 imm).trans rfl

theorem EncodingMatches.ori (rd rs1 : RegIx) (imm : Int) : EncodingMatches.Statement (.ori rd rs1 imm) :=
  (encodeI_fixed _ _ rd rs1 imm).trans rfl

theorem EncodingMatches.andi (rd rs1 : RegIx) (imm : Int) : EncodingMatches.Statement (.andi rd rs1 imm) :=
  (encodeI_fixed _ _ rd rs1 imm).trans rfl

theorem EncodingMatches.lw (rd rs1 : RegIx) (imm : Int) : EncodingMatches.Statement (.lw rd rs1 imm) :=
  (encodeI_fixed _ _ rd rs1 imm).trans rfl

theorem EncodingMatches.sw (rs2 rs1 : RegIx) (imm : Int) : EncodingMatches.Statement (.sw rs2 rs1 imm) :=
  (encodeS_fixed _ _ rs1 rs2 _).trans rfl

theorem EncodingMatches.beq (rs1 rs2 : RegIx) (imm : Int) : EncodingMatches.Statement (.beq rs1 rs2 imm) :=
  (encodeB_fixed _ _ rs1 rs2 _).trans rfl

theorem EncodingMatches.bne (rs1 rs2 : RegIx) (imm : Int) : EncodingMatches.Statement (.bne rs1 rs2 imm) :=
  (encodeB_fixed _ _ rs1 rs2 _).trans rfl

theorem EncodingMatches.jal (rd : RegIx) (imm : Int) : EncodingMatches.Statement (.jal rd imm) :=
  (encodeJ_fixed _ rd _).trans rfl

theorem EncodingMatches.halt : EncodingMatches.Statement .halt := rfl

end Sys2Proof.Laws
end

