-- ==== Sys2Proof/Laws/Profile.lean ====
section
/-! SUPPORT. What each shape of the test profile answers: the next state in full, or the fault. -/

namespace Sys2Proof.Machine

/-- The state with the default successor written (spec/47_test_profile.md R252). -/
def afterSuccessor (s : State) : State :=
  { s with nxt := { s.nxt with
      IF := { nop := false, PC := BitVec.ofNat 32 (successorOf s.cur.IF.PC) } } }

/-- The state with a transfer's target written. -/
def afterTarget (s : State) (imm : Int) : State :=
  { s with nxt := { s.nxt with
      IF := { nop := false, PC := BitVec.ofNat 32 (targetOf s.cur.IF.PC imm) } } }

/-- The state with a register written, `x0` discarding. -/
def setReg (s : State) (r : RegIx) (v : Int) : State :=
  if r = 0 then s else { s with rf := s.rf.set r.val (BitVec.ofInt 32 v) r.isLt }

theorem setReg_read (s : State) (r q : RegIx) {v : Int} (h : representable v 32 = true) :
    regValue (setReg s r v).rf q.val = if q ≠ 0 ∧ q = r then v else regValue s.rf q.val := by
  by_cases hq : q = 0
  · subst hq; simp
  have hq0 : q.val ≠ 0 := fun h0 => hq (Fin.ext h0)
  rw [regValue_pos _ hq0 q.isLt, regValue_pos _ hq0 q.isLt]
  unfold setReg
  by_cases hr : r = 0
  · subst hr; simp [hq]
  · rw [if_neg hr]
    simp only [Vector.getElem_set]
    by_cases he : r.val = q.val
    · have : q = r := Fin.ext he.symm
      simp [he, this, hr, signed_ofInt h]
    · have : q ≠ r := fun h' => he (congrArg Fin.val h'.symm)
      simp [he, this]

theorem runPorts_withSuccessor (work : Word → PortProgram) (s : State) :
    runPorts (withSuccessor work) s = runPorts (work s.cur.IF.PC) (afterSuccessor s) := by
  simp only [withSuccessor, runPorts]
  rw [writeNextPC_ok _ (successorOf_lt _)]
  rfl

theorem runPorts_registerForm {f : Int → Int → Int} (hf : ∀ a b, representable (f a b) 32 = true)
    (rd rs1 rs2 : RegIx) (s : State) :
    runPorts (registerForm f rd rs1 rs2) s =
      .next (setReg (afterSuccessor s) rd (f (regValue s.rf rs1.val) (regValue s.rf rs2.val))) := by
  rw [registerForm, runPorts_withSuccessor]
  simp only [runPorts, rfRead_reg, rfWrite_reg _ _ (hf _ _)]
  rfl

theorem runPorts_immediateForm {f : Int → Int → Int} (hf : ∀ a b, representable (f a b) 32 = true)
    (rd rs1 : RegIx) (imm : Int) (s : State) :
    runPorts (immediateForm f rd rs1 imm) s =
      .next (setReg (afterSuccessor s) rd (f (regValue s.rf rs1.val) imm)) := by
  rw [immediateForm, runPorts_withSuccessor]
  simp only [runPorts, rfRead_reg, rfWrite_reg _ _ (hf _ _)]
  rfl

theorem runPorts_loadForm_ok (rd rs1 : RegIx) (imm : Int) (s : State)
    (h : effectiveAddress (regValue s.rf rs1.val) imm + 4 ≤ s.dmem.size) :
    runPorts (loadForm rd rs1 imm) s =
      .next (setReg (afterSuccessor s) rd
        (signed (s.dmem.wordAt (effectiveAddress (regValue s.rf rs1.val) imm).toNat))) := by
  rw [loadForm, runPorts_withSuccessor]
  simp only [runPorts, rfRead_reg]
  rw [show regValue (afterSuccessor s).rf rs1.val = regValue s.rf rs1.val from rfl,
    memRead_ok (s := afterSuccessor s) (effectiveAddress_nonneg _ _) h]
  simp only [rfWrite_reg _ _ (representable_signed _)]
  rfl

theorem runPorts_loadForm_fault (rd rs1 : RegIx) (imm : Int) (s : State)
    (h : (s.dmem.size : Int) < effectiveAddress (regValue s.rf rs1.val) imm + 4) :
    runPorts (loadForm rd rs1 imm) s =
      .fault (.dataOutOfBounds (effectiveAddress (regValue s.rf rs1.val) imm)) := by
  rw [loadForm, runPorts_withSuccessor]
  simp only [runPorts, rfRead_reg]
  rw [show regValue (afterSuccessor s).rf rs1.val = regValue s.rf rs1.val from rfl,
    memRead_error (s := afterSuccessor s) (.inr h)]

theorem runPorts_storeForm_ok (rs2 rs1 : RegIx) (imm : Int) (s : State)
    (h : effectiveAddress (regValue s.rf rs1.val) imm + 4 ≤ s.dmem.size) :
    runPorts (storeForm rs2 rs1 imm) s =
      .next { afterSuccessor s with
        dmem := s.dmem.storeWord (effectiveAddress (regValue s.rf rs1.val) imm).toNat
          (BitVec.ofInt 32 (regValue s.rf rs2.val)) } := by
  rw [storeForm, runPorts_withSuccessor]
  simp only [runPorts, rfRead_reg]
  rw [show regValue (afterSuccessor s).rf rs1.val = regValue s.rf rs1.val from rfl,
    memWrite_ok (s := afterSuccessor s) (effectiveAddress_nonneg _ _) h (representable_regValue _ _)]
  rfl

theorem runPorts_storeForm_fault (rs2 rs1 : RegIx) (imm : Int) (s : State)
    (h : (s.dmem.size : Int) < effectiveAddress (regValue s.rf rs1.val) imm + 4) :
    runPorts (storeForm rs2 rs1 imm) s =
      .fault (.dataOutOfBounds (effectiveAddress (regValue s.rf rs1.val) imm)) := by
  rw [storeForm, runPorts_withSuccessor]
  simp only [runPorts, rfRead_reg]
  rw [show regValue (afterSuccessor s).rf rs1.val = regValue s.rf rs1.val from rfl,
    memWrite_error (s := afterSuccessor s) (.inr h)]

theorem runPorts_branchForm (cond : Int → Int → Bool) (rs1 rs2 : RegIx) (imm : Int) (s : State) :
    runPorts (branchForm cond rs1 rs2 imm) s =
      if cond (regValue s.rf rs1.val) (regValue s.rf rs2.val) then
        if targetOf s.cur.IF.PC imm % 4 = 0 then .next (afterTarget s imm)
        else .fault (.misalignedTarget (targetOf s.cur.IF.PC imm))
      else .next (afterSuccessor s) := by
  rw [branchForm, runPorts_withSuccessor]
  simp only [runPorts, rfRead_reg]
  rw [show regValue (afterSuccessor s).rf = regValue s.rf from rfl]
  split_ifs with hc ht
  · rw [checkTarget, if_pos ht, runPorts, writeNextPC_ok _ (targetOf_lt _ _)]
    rfl
  · rw [checkTarget, if_neg ht]
    rfl
  · rfl

theorem runPorts_jumpForm (rd : RegIx) (imm : Int) (s : State) :
    runPorts (jumpForm rd imm) s =
      if targetOf s.cur.IF.PC imm % 4 = 0 then
        .next (setReg (afterTarget s imm) rd (linkOf s.cur.IF.PC))
      else .fault (.misalignedTarget (targetOf s.cur.IF.PC imm)) := by
  rw [jumpForm, runPorts_withSuccessor]
  split_ifs with ht
  · rw [checkTarget, if_pos ht]
    simp only [runPorts, rfWrite_reg _ _ (representable_linkOf _)]
    by_cases hr : rd = 0
    · simp only [hr, if_true, writeNextPC_ok _ (targetOf_lt _ _)]
      rfl
    · simp only [hr, if_false, writeNextPC_ok _ (targetOf_lt _ _), setReg]
      rfl
  · rw [checkTarget, if_neg ht]
    rfl

end Sys2Proof.Machine
end

