-- ==== Sys2Proof/Tests/Slice0.lean ====
section
/-! SUPPORT. Tests. Expected values are the spec's own: V and P numbers are rows of
spec/95_test_vectors.md, R numbers are rules. The `witness` theorems show concrete states and
operands that meet the hypotheses of the statements. -/

namespace Sys2Proof.Tests

open Sys2Proof.Machine Sys2Proof.Claims

/-! ### Helpers -/

/-- The reset state with a word at address 0, registers and data cells. -/
def start (w : Nat) (regs : List (Nat × Int) := []) (cells : List Host.Cell := []) : State :=
  { State.reset.withFetchWord 32 w with
    rf := regs.foldl (fun rf p => rf.setIfInBounds p.1 (bitsOf p.2)) (Vector.replicate 32 0)
    dmem := { size := 1000, cells := cells } }

/-- The state after one step, faults as their marked states (R217). -/
def after (s : State) : State := settle s (step s)

/-- A register's value after one step. -/
def regAfter (s : State) (i : Nat) : Int := regValue (after s).rf i

/-! ### Well-formedness: a term that each check refuses -/

theorem test_wf_I_too_large : (Instr.addi 1 0 2048).wf = false := by decide
theorem test_wf_S_too_small : (Instr.sw 1 0 (-2049)).wf = false := by decide
theorem test_wf_B_odd : (Instr.beq 1 2 3).wf = false := by decide
theorem test_wf_B_too_large : (Instr.bne 1 2 4096).wf = false := by decide
theorem test_wf_J_odd : (Instr.jal 1 5).wf = false := by decide
theorem test_wf_J_too_small : (Instr.jal 1 (-1048578)).wf = false := by decide

/-! ### Decoding: words the spec writes out -/

theorem test_decode_add : decode 0x006283B3 = .ok (.add 7 5 6) := by decide
theorem test_decode_sub : decode 0x40530433 = .ok (.sub 8 6 5) := by decide
theorem test_decode_xor : decode 0x0062C4B3 = .ok (.xor 9 5 6) := by decide
theorem test_decode_or : decode 0x0062E5B3 = .ok (.or 11 5 6) := by decide
theorem test_decode_and : decode 0x0062F533 = .ok (.and 10 5 6) := by decide
theorem test_decode_addi : decode 0xFFD00313 = .ok (.addi 6 0 (-3)) := by decide
theorem test_decode_xori : decode 0xFFF24293 = .ok (.xori 5 4 (-1)) := by decide
theorem test_decode_ori : decode 0x07F06313 = .ok (.ori 6 0 127) := by decide
theorem test_decode_andi : decode 0x0F017393 = .ok (.andi 7 2 240) := by decide
theorem test_decode_lw : decode 0x00602203 = .ok (.lw 4 0 6) := by decide
theorem test_decode_sw : decode 0xFE112FA3 = .ok (.sw 1 2 (-1)) := by decide
theorem test_decode_beq : decode 0x80208063 = .ok (.beq 1 2 (-4096)) := by decide
theorem test_decode_bne : decode 0xFE009CE3 = .ok (.bne 1 0 (-8)) := by decide
theorem test_decode_jal : decode 0xFFDFF0EF = .ok (.jal 1 (-4)) := by decide
theorem test_decode_halt : decode 0xFFFFFFFF = .ok .halt := by decide

/-- Field by field from R92, `SW x3, 8(x0)` of P2. -/
theorem test_decode_sw_fields :
    decode (0b0000000#7 ++ 0b00011#5 ++ 0b00000#5 ++ 0b010#3 ++ 0b01000#5 ++ 0b0100011#7) =
      .ok (.sw 3 0 8) := by decide

/-- Words of RV32I that the profile leaves out (V103, V104). -/
theorem test_decode_rejects :
    decode 0x00000000 = .error (.unrecognised 0x00000000) ∧
      decode 0x00000073 = .error (.unrecognised 0x00000073) ∧
      decode 0x0000000F = .error (.unrecognised 0x0000000F) ∧
      decode 0x02000033 = .error (.unrecognised 0x02000033) := by decide

theorem test_decode_too_short : decodeCells [0xFF, 0xFF, 0xFF] = .error (.tooShort 3) := by decide
theorem test_decode_cells :
    decodeCells [0x00, 0xA0, 0x02, 0x93, 0x55] = .ok (.addi 5 0 10, [0x55]) := by decide
theorem test_decode_table_word : decodeTableWord 32 0x40000033 = some (.sub 0 0 0) := by decide

/-- The encoder gives the spec's words back. -/
theorem test_encode_words :
    encode (.add 7 5 6) = 0x006283B3 ∧ encode (.lw 1 0 996) = 0x3E402083 ∧
      encode (.sw 1 2 (-1)) = 0xFE112FA3 ∧ encode (.beq 1 2 (-4096)) = 0x80208063 ∧
      encode (.jal 1 (-4)) = 0xFFDFF0EF := by decide

/-! ### One instruction each -/

theorem test_add_wraps : regAfter (start 0x002081B3 [(1, 2147483647), (2, 1)]) 3 = -2147483648 := by
  decide
theorem test_sub_wraps : regAfter (start 0x402081B3 [(1, -2147483648), (2, 1)]) 3 = 2147483647 := by
  decide
theorem test_xor : regAfter (start 0x0062C4B3 [(5, 10), (6, -3)]) 9 = -9 := by decide
theorem test_or : regAfter (start 0x0062E5B3 [(5, 10), (6, -3)]) 11 = -1 := by decide
theorem test_and : regAfter (start 0x0062F533 [(5, 10), (6, -3)]) 10 = 8 := by decide
theorem test_addi_extremes :
    regAfter (start 0x7FF00093) 1 = 2047 ∧ regAfter (start 0x80000093) 1 = -2048 := by decide
theorem test_addi_x0 : (after (start 0x00500013)).rf[0] = 0 := by decide
theorem test_xori : regAfter (start 0xFFF24293 [(4, -131072)]) 5 = 131071 := by decide
theorem test_ori : regAfter (start 0x80006093) 1 = -2048 := by decide
theorem test_andi : regAfter (start 0x7FF0F113 [(1, -1)]) 2 = 2047 := by decide
theorem test_lw :
    regAfter (start 0x3E402083 [] [(996, 0x12), (997, 0x34), (998, 0x56), (999, 0x78)]) 1 =
      305419896 := by decide
theorem test_lw_faults :
    (after (start 0xFFC02083)).fault = some (.dataOutOfBounds 4294967292) ∧
      (after (start 0x3E602003)).fault = some (.dataOutOfBounds 998) := by decide
theorem test_sw : (after (start 0x00102123 [(1, -1)])).dmem.cells =
    [(2, 0xFF), (3, 0xFF), (4, 0xFF), (5, 0xFF)] := by decide
theorem test_sw_negative_offset :
    (after (start 0xFE112FA3 [(1, 5), (2, 1)])).dmem.cells = [(3, 0x05)] := by decide
theorem test_beq_taken : (after (start 0x80208063)).cur.IF.PC = 4294963200 := by decide
theorem test_beq_misaligned :
    (after (start 0x00000363)).fault = some (.misalignedTarget 6) ∧
      (after (start 0x00000363)).cycle = 0 := by decide
theorem test_bne_not_taken :
    (after (start 0x00001363)).cur.IF.PC = 4 ∧ (after (start 0x00001363)).fault = none := by decide
theorem test_bne_taken : (after (start 0xFE009CE3 [(1, 4)])).cur.IF.PC = 4294967288 := by decide
theorem test_jal :
    regAfter (start 0xFFDFF0EF) 1 = 4 ∧ (after (start 0xFFDFF0EF)).cur.IF.PC = 4294967292 := by decide
theorem test_jal_misaligned :
    (after (start 0x002000EF)).fault = some (.misalignedTarget 2) ∧
      regAfter (start 0x002000EF) 1 = 0 := by decide

/-- Scenario A: the halting cycle counts, is traced and changes no register. -/
theorem test_halt :
    (after (start 0xFFFFFFFF)).halted = true ∧ (after (start 0xFFFFFFFF)).cycle = 1 ∧
      (after (start 0xFFFFFFFF)).cur.IF = { nop := false, PC := 0 } ∧
      (after (start 0xFFFFFFFF)).rfTrace = [{ cycle := 0, regs := Vector.replicate 32 0 }] := by decide

/-- V103: a word in no row halts in cycle 0. -/
theorem test_ecall_halts :
    (after (start 0x00000073)).halted = true ∧ (after (start 0x00000073)).fault = none := by decide

/-! ### Components -/

theorem test_codec_decode :
    codecDecode "11111111111111111111111111111110".toList = .ok (-2) ∧
      codecDecode "1".toList = .ok (-1) ∧ codecDecode "0".toList = .ok 0 ∧
      codecDecode "0012".toList = .error (.codecBadString "0012".toList) ∧
      codecDecode [] = .error (.codecBadString []) := by decide
theorem test_codec_encode :
    codecEncode (-1) 8 = .ok "11111111".toList ∧ codecEncode (-128) 8 = .ok "10000000".toList ∧
      codecEncode 127 8 = .ok "01111111".toList ∧ codecEncode 128 8 = .error (.codecRange 128 8) ∧
      codecEncode 300 32 = .ok "00000000000000000000000100101100".toList := by decide

/-- V12, V13: a misaligned fetch, and one past the image. -/
theorem test_fetch :
    iFetch (Memory.ofBytes 8 [0x11, 0x22, 0x33, 0x44, 0x55, 0x66, 0x77, 0x88]) 2 = .ok 0x33445566 ∧
      iFetch (Memory.ofBytes 8 [0x11, 0x22, 0x33, 0x44, 0x55, 0x66, 0x77, 0x88]) 5 =
        .error (.fetchOutOfRange 5) := by decide

/-- V14: the empty image faults in cycle 0 and leaves no record. -/
theorem test_empty_image :
    (after State.reset).fault = some (.fetchOutOfRange 0) ∧ (after State.reset).cycle = 0 ∧
      (after State.reset).rfTrace = [] := by decide

/-- V25, V28: a misaligned read, and one past the memory. -/
theorem test_read_word :
    memRead (start 0 [] [(0, 0x11), (1, 0x22), (2, 0x33), (3, 0x44), (4, 0x55), (5, 0x66)]) 2 =
        .ok 860116326 ∧
      memRead (start 0) 4294967292 = .error (.dataOutOfBounds 4294967292) := by decide

/-- The fault of a write, if it faults. -/
def writeFault (a v : Int) : Option Fault :=
  match memWrite (start 0) a v with
  | .ok _ => none
  | .error f => some f

/-- V21 to V24: the last window, one past it, the bounds before the range, the range. -/
theorem test_write_word :
    writeFault 996 (-1) = none ∧ writeFault 997 0 = some (.dataOutOfBounds 997) ∧
      writeFault 998 2147483648 = some (.dataOutOfBounds 998) ∧
      writeFault 0 2147483648 = some (.codecRange 2147483648 32) := by decide

/-- The value of a register after a write, or the fault of the write. -/
def writtenReg (i v : Int) : Except Fault Int :=
  match rfWrite (start 0) i v with
  | .ok t => rfRead t i
  | .error f => .error f

/-- V31 to V35. -/
theorem test_register_file :
    writtenReg 0 5 = .ok 0 ∧ writtenReg 0 1099511627776 = .ok 0 ∧
      writtenReg 3 2147483648 = .error (.codecRange 2147483648 32) ∧
      writtenReg 31 (-2147483648) = .ok (-2147483648) ∧
      writtenReg (-1) 0 = .error (.regIndex (-1)) ∧
      rfRead (start 0) 32 = .error (.regIndex 32) := by decide

/-- V11, V17: the lines of P1's first word, with both terminators. -/
theorem test_image :
    imemLoad (some "00000000\r\n10100000\n00000010\n10010011\n".toList) =
      .ok (Memory.ofBytes 4 [0x00, 0xA0, 0x02, 0x93]) := by decide

/-- V16, V18, V29: a short line, a blank line in the middle, a missing image, a long data image. -/
theorem test_image_errors :
    imemLoad (some "0000000\n".toList) = .error (.malformedLine .instruction 0) ∧
      dmemLoad 4 (some "00000000\n\n00000000\n".toList) = .error (.malformedLine .data 1) ∧
      imemLoad none = .error (.missingImage .instruction) ∧
      dmemLoad 1 (some "00000000\n00000001".toList) = .error (.imageTooLarge 2) := by decide

/-- V60 to V72: the report's numbers, IPC in millionths. -/
theorem test_metrics :
    [1, 2, 3, 6, 7, 10, 100, 2000000, 2000001].map (fun c => (ipcMillionths c, inferredCount c)) =
      [(0, 0), (500000, 1), (666667, 3), (833333, 5), (857143, 7), (900000, 9), (990000, 99),
       (1000000, 2000000), (1000000, 2000001)] := by decide

/-- R268, R269: reading a line, in the spellings the rule allows. -/
theorem test_assembly :
    readAssembly "ADDI t0, x0, 0x0A".toList = some (.addi 5 0 10) ∧
      readAssembly "sw x1, -1(x2)".toList = some (.sw 1 2 (-1)) ∧
      readAssembly "beqz fp, 8".toList = some (.beq 8 0 8) ∧
      readAssembly ".word 0xFFFFFFFF".toList = some .halt ∧
      readAssembly "addi x1, x0, 2048".toList = none := by decide

/-! ### Other executors -/

/-- An executor that sets `nxt.IF.nop` and goes on to the next word (V39). -/
def stopper : Collaborators Unit where
  haltWord := 0xFFFFFFFF
  decode w := if w = 0xFFFFFFFF then none else some ()
  execute _ _ := .readCur fun cur => .writeNop true (.writePC (cur.IF.PC.toNat + 4) .done)
  sentinel := by decide

/-- An executor that makes no call (V38). -/
def idler : Collaborators Unit := { stopper with execute := fun _ _ => .done }

/-- Two words at 0 and 4. -/
def twoWords : State := { State.reset with imem := Memory.ofBytes 8 [1, 1, 1, 1, 1, 1, 1, 1] }

/-- V39: the cycle entered with `nop` set still executes, counts and is traced. -/
theorem test_nop_cycle_executes :
    (blockRun stopper (fun _ => false) 0 3 twoWords).cycle = 2 ∧
      (blockRun stopper (fun _ => false) 0 3 twoWords).halted = true ∧
      (blockRun stopper (fun _ => false) 0 3 twoWords).cur.IF = { nop := true, PC := 8 } := by decide

/-- V40: that cycle's halt is not kept when its fetch faults. -/
theorem test_nop_cycle_faults :
    (blockRun stopper (fun _ => false) 0 3 (start 1)).fault = some (.fetchOutOfRange 4) ∧
      (blockRun stopper (fun _ => false) 0 3 (start 1)).halted = false ∧
      (blockRun stopper (fun _ => false) 0 3 (start 1)).cycle = 1 := by decide

/-- V38: an executor that writes nothing fetches address 0 again. -/
theorem test_idle_executor :
    (blockRun idler (fun _ => false) 0 2 (start 1)).cur.IF.PC = 0 ∧
      (blockRun idler (fun _ => false) 0 2 (start 1)).cycle = 2 := by decide

/-! ### Witnesses: what meets the hypotheses of the statements -/

/-- The word at address 0 of `start w` lies in its image. -/
theorem start_inside (w : Nat) : FetchInside (start w) := Nat.le_refl 4

theorem start_fetches : HasStep (start 0xFFFFFFFF) ∧ FetchInside (start 0xFFFFFFFF) ∧
    fetchedWord (start 0xFFFFFFFF) = 0xFFFFFFFF := ⟨⟨rfl, rfl⟩, start_inside _, by decide⟩

/-- DecodeOfEncode: well-formed instructions at both ends of each immediate's range. -/
theorem witness_wf :
    (Instr.addi 1 31 2047).wf = true ∧ (Instr.sw 31 1 (-2048)).wf = true ∧
      (Instr.beq 1 2 4094).wf = true ∧ (Instr.bne 1 2 (-4096)).wf = true ∧
      (Instr.jal 1 1048574).wf = true ∧ (Instr.jal 0 (-1048576)).wf = true := by decide

/-- EncodeOfDecode, OpcodeMapExact: words that decode. -/
theorem witness_decodes : decode 0x7FF00093 = .ok (.addi 1 0 2047) ∧
    decode 0x80000093 = .ok (.addi 1 0 (-2048)) := by decide

/-- WrapIsTheRepresentative: both ends of the range are meant. -/
theorem witness_wrap :
    (-2 ^ 31 ≤ (-2147483648 : Int) ∧ (-2147483648 : Int) < 2 ^ 31 ∧
      (-2147483648 : Int) % 2 ^ 32 = 2147483648 % 2 ^ 32) ∧
    (-2 ^ 31 ≤ (2147483647 : Int) ∧ (2147483647 : Int) < 2 ^ 31) := by decide

/-- The words of the instruction rules select their rows. -/
theorem witness_rows :
    (0x002081B3 : Word) &&& 0xFE00707F = 0x00000033 ∧ (0x402081B3 : Word) &&& 0xFE00707F = 0x40000033 ∧
      (0x0062C4B3 : Word) &&& 0xFE00707F = 0x00004033 ∧
      (0x0062E5B3 : Word) &&& 0xFE00707F = 0x00006033 ∧
      (0x0062F533 : Word) &&& 0xFE00707F = 0x00007033 ∧ (0x7FF00093 : Word) &&& 0x0000707F = 0x00000013 ∧
      (0xFFF24293 : Word) &&& 0x0000707F = 0x00004013 ∧
      (0x80006093 : Word) &&& 0x0000707F = 0x00006013 ∧
      (0x7FF0F113 : Word) &&& 0x0000707F = 0x00007013 ∧
      (0x3E402083 : Word) &&& 0x0000707F = 0x00002003 ∧
      (0xFE112FA3 : Word) &&& 0x0000707F = 0x00002023 ∧
      (0x80208063 : Word) &&& 0x0000707F = 0x00000063 ∧
      (0xFE009CE3 : Word) &&& 0x0000707F = 0x00001063 ∧
      (0xFFDFF0EF : Word) &&& 0x0000007F = 0x0000006F := by decide

/-- LwRule, SwRule: the last window inside the memory, the first outside, and the canonical form. -/
theorem witness_windows :
    (x (start 0) 0 + 996) % 2 ^ 32 + 4 ≤ ((start 0).dmem.size : Int) ∧
      ((start 0).dmem.size : Int) < (x (start 0) 0 + 997) % 2 ^ 32 + 4 ∧
      ((start 0).dmem.size : Int) < (x (start 0) 0 + -1) % 2 ^ 32 + 4 ∧ (start 0).dmem.wf := by decide

/-- BeqRule, BneRule, JalRule: taken to an aligned and to a misaligned target, and not taken. -/
theorem witness_targets :
    x (start 0) 1 = x (start 0) 2 ∧ x (start 0 [(1, 4)]) 1 ≠ x (start 0 [(1, 4)]) 0 ∧
      (((start 0).cur.IF.PC.toNat : Int) + -4) % 2 ^ 32 % 4 = 0 ∧
      (((start 0).cur.IF.PC.toNat : Int) + 6) % 2 ^ 32 % 4 ≠ 0 := by decide

/-- HaltRule, CycleRule, StepEnabledExactly: a state with a step that fetches the halt word. -/
theorem witness_halt : ∃ s, HasStep s ∧ FetchInside s ∧ fetchedWord s = 0xFFFFFFFF :=
  ⟨_, start_fetches⟩

/-- UnlistedWordHalts: a state that fetches `ECALL`. -/
theorem witness_unlisted : ∃ s, HasStep s ∧ FetchInside s ∧
    ∀ r ∈ operationRows, fetchedWord s &&& r.1 ≠ r.2 :=
  ⟨start 0x00000073, ⟨rfl, rfl⟩, start_inside _, by
    rw [show fetchedWord (start 0x00000073) = 0x00000073 by decide]; simp [operationRows]⟩

/-- ProfileCommonPart: an instruction that completes, and the two that fault. -/
theorem witness_common_part :
    (∃ t, exec (.addi 1 0 1) (start 0) = .next t) ∧
      exec (.lw 1 0 997) (start 0) = .fault (.dataOutOfBounds 997) ∧
      exec (.jal 1 2) (start 0) = .fault (.misalignedTarget 2) :=
  ⟨⟨_, rfl⟩, runPorts_loadForm_fault 1 0 997 (start 0) (by decide), by
    rw [show exec (.jal 1 2) (start 0) = runPorts (jumpForm 1 2) (start 0) from rfl, runPorts_jumpForm,
      if_neg (by decide)]
    rfl⟩

/-- PseudoInstructionEffects: both ends of `li`'s range. -/
theorem witness_li : -2048 ≤ (-2048 : Int) ∧ (-2048 : Int) ≤ 2047 ∧ -2048 ≤ (2047 : Int) := by decide

/-- CodecDecodeRule, CodecRoundTrips: strings of width 1, and two that are no binary string. -/
theorem witness_strings :
    (['1'] ≠ [] ∧ ∀ c ∈ ['1'], c = '0' ∨ c = '1') ∧ (['0'] ≠ [] ∧ ∀ c ∈ ['0'], c = '0' ∨ c = '1') ∧
      ∃ c ∈ ['0', '2'], c ≠ '0' ∧ c ≠ '1' := by simp

/-- CodecEncodeRule, CodecRoundTrips: both ends of the range of width 8, and one past each. -/
theorem witness_codec_range :
    0 < 8 ∧ -2 ^ (8 - 1) ≤ (-128 : Int) ∧ (127 : Int) < 2 ^ (8 - 1) ∧ (-129 : Int) < -2 ^ (8 - 1) ∧
      2 ^ (8 - 1) ≤ (128 : Int) := by decide

/-- CodecBitView: a width that is not 0. -/
theorem witness_bits : 0 < 8 ∧ codecDecode (stringOfBits (0x80 : Byte)) = .ok (-128) := by decide

/-- FetchRule: the last window of a 4-cell image and the first outside it. -/
theorem witness_fetch_windows :
    (0 : Word).toNat + 4 ≤ (start 0).imem.size ∧ (start 0).imem.size < (1 : Word).toNat + 4 := by decide

/-- ReadWordRule, WriteWordRule: the last window, one past it, a negative address, the ends of the
range of values. -/
theorem witness_word_access :
    (0 ≤ (996 : Int) ∧ (996 : Int) + 4 ≤ (start 0).dmem.size) ∧
      ((start 0).dmem.size : Int) < 997 + 4 ∧ (-1 : Int) < 0 ∧ (start 0).dmem.wf ∧
      (2 ^ 31 ≤ (2147483648 : Int) ∧ (-2147483649 : Int) < -2 ^ 31) ∧
      (-2 ^ 31 ≤ (-2147483648 : Int) ∧ (2147483647 : Int) < 2 ^ 31) := by decide

/-- DumpRule, DumpReloads: a canonical memory with cells. -/
theorem witness_dump : 0 < (start 0 [] [(0, 1), (999, 2)]).dmem.size ∧
    (start 0 [] [(0, 1), (999, 2)]).dmem.wf := by decide

/-- RegisterReadRule, RegisterWriteRule: the first indices out of range, and a register. -/
theorem witness_registers : (-1 : Int) < 0 ∧ 31 < (32 : Int) ∧ (31 : RegIx) ≠ 0 := by decide

/-- ImageLinesRule: lines without terminators in them. -/
theorem witness_lines : (∀ l ∈ [['0', '1'], []], ∀ c ∈ l, c ≠ '\n' ∧ c ≠ '\r') ∧
    ['1'] ≠ [] ∧ ∀ c ∈ ['1'], c ≠ '\n' ∧ c ≠ '\r' := by simp

/-- A line of eight zeros. -/
def zeroLine : List Char := List.replicate 8 '0'

theorem zeroLine_valid : ValidLine zeroLine := ⟨by decide, by simp [zeroLine]⟩

theorem zeroLine_image : imageLines (zeroLine ++ ['\n']) = [zeroLine] := by decide

/-- InstructionImageLoad, DataImageLoad: an image of one valid line, which fits one cell and not
none, and an image whose first line is bad. -/
theorem witness_images :
    (∀ l ∈ imageLines (zeroLine ++ ['\n']), ValidLine l) ∧
      (imageLines (zeroLine ++ ['\n'])).length ≤ 1 ∧ 0 < (imageLines (zeroLine ++ ['\n'])).length ∧
      FirstBadLine (imageLines ['0', '\n']) 0 := by
  refine ⟨?_, by decide, by decide, ⟨['0'], by decide, fun h => absurd h.1 (by decide)⟩,
    fun j hj => absurd hj (by omega)⟩
  rw [zeroLine_image]
  intro l hl
  rw [List.mem_singleton.1 hl]
  exact zeroLine_valid

/-- StartupStateValues, InvariantAtStartup: two images that load. -/
theorem witness_startup :
    ∃ s, startup 1000 (some (zeroLine ++ ['\n'])) (some (zeroLine ++ ['\n'])) = .ok s := ⟨_, rfl⟩

/-- CycleRule, StepEnabledExactly: a state without a step, a fetch outside the image, a decode to
none, an executor that completes and one that faults. -/
theorem witness_cycle :
    (State.reset.halted = false ∧ ¬ FetchInside State.reset) ∧
      stopper.decode 0xFFFFFFFF = none ∧ stopper.decode 1 = some () ∧
      (∃ u, runPorts (stopper.execute () true) (opened (start 1)) = .next u) ∧
      runPorts (.fail "reason") (opened (start 1)) = .fault (.executorFault "reason") ∧
      ∃ r, blockStep stopper true (setHalted State.reset) = .refused r :=
  ⟨⟨rfl, by unfold FetchInside; decide⟩, by decide, by decide, ⟨_, rfl⟩, rfl, ⟨_, rfl⟩⟩

/-- CountersMonotone, HaltTriggersExactly, BlockInvariantKept, OutputsDoNotFeedBack: a completed step
from a state with the invariant, one that halts and one that does not. -/
theorem witness_block_step : blockInv twoWords ∧ (∃ t, blockStep stopper false twoWords = .next t) ∧
    (∃ t, blockStep profile false (start 0xFFFFFFFF) = .next t ∧ t.halted = true) ∧
    (blockRun stopper (fun _ => false) 0 2 twoWords).halted = true :=
  ⟨⟨rfl, by decide, rfl, ⟨rfl, rfl⟩, fun h => absurd h (by decide)⟩, ⟨_, rfl⟩, ⟨_, rfl, by decide⟩,
    by decide⟩

/-- FaultLeavesPreStepState, OutputsDoNotFeedBack: a step that faults. -/
theorem witness_fault : blockStep stopper false State.reset = .fault (.fetchOutOfRange 0) := rfl

/-- ExecutorReachesOnlyItsPorts: two states that differ where no executor looks. -/
theorem witness_ports :
    (setHalted (start 0)).rf = (start 0).rf ∧ (setHalted (start 0)).dmem = (start 0).dmem ∧
      (setHalted (start 0)).cur = (start 0).cur ∧ (setHalted (start 0)).nxt = (start 0).nxt ∧
      (∃ t, runPorts (.writeReg 1 5 .done) (start 0) = .next t) ∧
      runPorts (.writeReg 32 5 .done) (start 0) = .fault (.regIndex 32) :=
  ⟨rfl, rfl, rfl, rfl, ⟨_, rfl⟩, rfl⟩

/-- WritesVisibleInTheSameCycle: its memory, value and register. -/
theorem witness_visible : (start 0).dmem.wf ∧ -2 ^ 31 ≤ (9 : Int) ∧ (9 : Int) < 2 ^ 31 ∧
    (4 : RegIx) ≠ 0 := by decide

/-- TracesRecordTheRun, EndedRunExecutedAllButOne: a run that has completed a cycle and ended. -/
theorem witness_run :
    0 < (blockRun profile (fun _ => false) 0 3
      (State.resetWith (start 0xFFFFFFFF).imem State.reset.dmem)).cycle ∧
    ended (runCycles 3 (State.resetWith (start 0xFFFFFFFF).imem State.reset.dmem)) = true := by decide

/-- ProfileInvariantKept: a state with the invariant, and a completed step. -/
theorem witness_profile_step : profileInv (State.reset.withFetchWord 32 0xFFDFF0EF) ∧
    ∃ t, step (State.reset.withFetchWord 32 0xFFDFF0EF) = .next t := by
  refine ⟨⟨⟨rfl, by decide, rfl, by decide, fun h => absurd h (by decide)⟩, by decide, rfl, rfl⟩, ?_⟩
  exact ⟨_, rfl⟩

/-- StepRunsTheDecodedInstruction: a word that decodes, run to completion; one that faults. -/
theorem witness_step : ∃ s, HasStep s ∧ FetchInside s ∧ decode (fetchedWord s) = .ok (.addi 1 0 2047) ∧
    ∃ u, exec (.addi 1 0 2047) (opened s) = .next u :=
  ⟨start 0x7FF00093, ⟨rfl, rfl⟩, start_inside _, by decide, ⟨_, rfl⟩⟩
theorem witness_step_fault : ∃ s, HasStep s ∧ FetchInside s ∧
    decode (fetchedWord s) = .ok (.lw 0 0 998) ∧
    exec (.lw 0 0 998) (opened s) = .fault (.dataOutOfBounds 998) :=
  ⟨start 0x3E602003, ⟨rfl, rfl⟩, start_inside _, by decide,
    runPorts_loadForm_fault 0 0 998 (opened (start 0x3E602003)) (by decide)⟩

/-- BubbleFieldsInfluenceNothing: two states that differ in a bubble's field, with a step. -/
theorem witness_bubbles :
    AgreeOutsideLaterStages (start 0xFFFFFFFF) (writeLatch (start 0xFFFFFFFF) (.wbWrtData 7)) ∧
      ∃ t, step (start 0xFFFFFFFF) = .next t := ⟨⟨rfl, rfl, rfl⟩, ⟨_, rfl⟩⟩

/-- IpcIsNearestMillionth, CpiAndInferredCount: the first two cycle counts and a tie. -/
theorem witness_counts : 0 < 1 ∧ ipcMillionths 1 = 0 ∧ cpiOf 1 = none ∧
    2 * (1999999 * 1000000 % 2000000) = 2000000 := by
  refine ⟨by decide, by decide, ?_, by decide⟩
  rw [cpiOf, if_pos (by decide)]

theorem witness_ipc_positive : 0 < ipcOf 2 ∧ ∃ q, cpiOf 2 = some q := by
  constructor
  · rw [ipcOf, show ipcMillionths 2 = 500000 by decide]; norm_num
  · rw [cpiOf, if_neg (by decide)]; exact ⟨_, rfl⟩

/-- OutputsOnlyAtTheEnd: an end state, and states that are none. -/
theorem witness_end :
    ((after (start 0xFFFFFFFF)).halted = true ∧ (after (start 0xFFFFFFFF)).fault = none) ∧
      State.reset.halted = false ∧ (after State.reset).fault ≠ none := by decide

end Sys2Proof.Tests
end

section
/-! PROOFS. `wrap32` is the map to the `SInt32` representative (spec/00_scope.md section 4, R14):
it keeps the residue modulo `2^32`, it depends on the residue alone, and it fixes `SInt32`. -/

namespace Sys2Proof.Machine

theorem representable_32_iff (v : Int) :
    representable v 32 = true ↔ -2 ^ 31 ≤ v ∧ v < 2 ^ 31 := by
  simp [representable_iff]

@[simp] theorem wrap32_emod (n : Int) : wrap32 n % 2 ^ 32 = n % 2 ^ 32 := Int.bmod_emod

theorem wrap32_eq_signed (n : Int) : wrap32 n = signed (BitVec.ofInt 32 n) :=
  (BitVec.toInt_ofInt n).symm

theorem wrap32_of_representable {v : Int} (h : representable v 32 = true) : wrap32 v = v :=
  (wrap32_eq_signed v).trans (signed_ofInt h)

theorem wrap32_congr {m n : Int} (h : m % 2 ^ 32 = n % 2 ^ 32) : wrap32 m = wrap32 n := by
  have residue (k : Int) : wrap32 k = wrap32 (k % 2 ^ 32) := (Int.emod_bmod k (2 ^ 32)).symm
  rw [residue m, h, ← residue n]

theorem eq_wrap32_iff {m n : Int} :
    m = wrap32 n ↔ representable m 32 = true ∧ m % 2 ^ 32 = n % 2 ^ 32 := by
  constructor
  · rintro rfl
    exact ⟨representable_wrap32 n, wrap32_emod n⟩
  · rintro ⟨hrange, hresidue⟩
    calc m = wrap32 m := (wrap32_of_representable hrange).symm
      _ = wrap32 n := wrap32_congr hresidue

/-- Settles O5, from the characterisation of `wrap32` with `SInt32` written as a range. -/
theorem wrapIsTheRepresentative : Obligations.WrapIsTheRepresentative := by
  intro n m
  rw [eq_wrap32_iff, representable_32_iff, and_assoc]

end Sys2Proof.Machine
end

section
/-! PROOFS. The block's invariant (spec/10_state.md R20, R21, R34; spec/46_trace_and_metrics.md R231
to R233). The part of it that does not speak of the commit, `MidCycleInv`, holds throughout a cycle:
the opening, a halt and every port keep it. The closing of the cycle makes the rest true. -/

namespace Sys2Proof.Machine

/-- The part of `blockInv` that holds between the opening and the closing of a cycle too. -/
structure MidCycleInv (s : State) : Prop where
  slot : zeroSlotHeld s
  memories : memoriesCanonical s
  numbered : tracesNumbered s

/-! ### Opening, halting and acting -/

theorem midCycleInv_openCycle {s : State} (h : MidCycleInv s) : MidCycleInv (openCycle s) where
  slot := by simpa [zeroSlotHeld] using h.slot
  memories := by simpa only [memoriesCanonical, openCycle_imem, openCycle_dmem] using h.memories
  numbered := by
    simpa only [tracesNumbered, openCycle_cycle, openCycle_rfTrace, openCycle_stTrace]
      using h.numbered

theorem midCycleInv_setHalted {s : State} (h : MidCycleInv s) : MidCycleInv (setHalted s) :=
  ⟨h.slot, h.memories, h.numbered⟩

theorem rfWrite_frame {s t : State} {i v : Int} (h : rfWrite s i v = .ok t) :
    t = { s with rf := t.rf } := by
  obtain ⟨-, -, hzero, hwrite⟩ := rfWrite_inv h
  by_cases hi : i = 0
  · rw [hzero hi]
  · rw [(hwrite hi).2]

theorem midCycleInv_rfWrite {s t : State} {i v : Int} (hs : MidCycleInv s)
    (h : rfWrite s i v = .ok t) : MidCycleInv t := by
  have hslot : zeroSlotHeld t := (rfWrite_slot h).trans hs.slot
  rw [rfWrite_frame h] at hslot ⊢
  exact ⟨hslot, hs.memories, hs.numbered⟩

theorem midCycleInv_memWrite {s t : State} {a v : Int} (hs : MidCycleInv s)
    (h : memWrite s a v = .ok t) : MidCycleInv t := by
  have hdmem : t.dmem.wf := (memWrite_wf h hs.memories.2).1
  obtain ⟨-, -, -, rfl⟩ := memWrite_inv h
  exact ⟨hs.slot, ⟨hs.memories.1, hdmem⟩, hs.numbered⟩

theorem midCycleInv_writeNextPC {s t : State} {v : Int} (hs : MidCycleInv s)
    (h : writeNextPC s v = .ok t) : MidCycleInv t := by
  obtain ⟨-, -, rfl⟩ := writeNextPC_inv h
  exact ⟨hs.slot, hs.memories, hs.numbered⟩

theorem midCycleInv_runPorts {p : PortProgram} {s t : State} (h : runPorts p s = .next t)
    (hs : MidCycleInv s) : MidCycleInv t := by
  refine runPorts_preserves (P := MidCycleInv) ?hreg ?hmem ?hpc ?hnop ?hfield h hs
  case hreg => exact fun _ _ _ _ => midCycleInv_rfWrite
  case hmem => exact fun _ _ _ _ => midCycleInv_memWrite
  case hpc => exact fun _ _ _ => midCycleInv_writeNextPC
  case hnop => exact fun _ _ hu => ⟨hu.slot, hu.memories, hu.numbered⟩
  case hfield => exact fun _ _ hu => ⟨hu.slot, hu.memories, hu.numbered⟩

/-- What steps 3 and 4 of a cycle can complete to: the halt, or the executor's next state. -/
theorem decodeAndExecute_next {Op : Type} {c : Collaborators Op} {flag : Bool} {w : Word}
    {s t : State} (h : decodeAndExecute c flag w s = .next t) :
    (c.decode w = none ∧ t = setHalted s) ∨
      ∃ op, c.decode w = some op ∧ runPorts (c.execute op flag) s = .next t := by
  cases hd : c.decode w with
  | none =>
    simp only [decodeAndExecute, hd, Host.Outcome.next.injEq] at h
    exact .inl ⟨rfl, h.symm⟩
  | some op =>
    simp only [decodeAndExecute, hd] at h
    exact .inr ⟨op, rfl, h⟩

theorem midCycleInv_decodeAndExecute {Op : Type} {c : Collaborators Op} {flag : Bool} {w : Word}
    {s t : State} (h : decodeAndExecute c flag w s = .next t) (hs : MidCycleInv s) :
    MidCycleInv t := by
  rcases decodeAndExecute_next h with ⟨-, rfl⟩ | ⟨op, -, hrun⟩
  · exact midCycleInv_setHalted hs
  · exact midCycleInv_runPorts hrun hs

/-! ### Closing

Both trace dumps extend a trace in the same way, fresh at cycle 0 and appended after. -/

theorem getLast?_dumped {α : Type} (c : Nat) (trace : List α) (record : α) :
    (if c = 0 then [record] else trace ++ [record]).getLast? = some record := by
  split_ifs <;> simp

theorem map_dumped_eq_range {α : Type} {number : α → Nat} {c : Nat} {trace : List α} {record : α}
    (htrace : trace.map number = List.range c) (hrecord : number record = c) :
    (if c = 0 then [record] else trace ++ [record]).map number = List.range (c + 1) := by
  split_ifs with hc
  · simp [hrecord, hc]
  · simp [htrace, hrecord, List.range_succ]

theorem tracesNumbered_closeCycle {s : State} (h : tracesNumbered s) :
    tracesNumbered (closeCycle s) :=
  ⟨map_dumped_eq_range h.1 rfl, map_dumped_eq_range h.2 rfl⟩

theorem tracesCurrent_closeCycle (s : State) : tracesCurrent (closeCycle s) := by
  intro _
  simp only [closeCycle_rfTrace, closeCycle_stTrace, rfTraceDump_rfTrace, stTraceDump_stTrace,
    getLast?_dumped, closeCycle_rf, closeCycle_cur, Option.map_some, and_self]

/-- The closing of a cycle settles the latches and records the state it leaves. -/
theorem blockInv_closeCycle {s : State} (h : MidCycleInv s) : blockInv (closeCycle s) :=
  ⟨h.slot, h.memories, rfl, tracesNumbered_closeCycle h.numbered, tracesCurrent_closeCycle s⟩

/-- Settles O50: open, act, close. -/
theorem blockInvariantKept : Obligations.BlockInvariantKept := by
  intro Op c flag s t hs hstep
  obtain ⟨hslot, hmemories, -, hnumbered, -⟩ := hs
  obtain ⟨-, w, u, -, hact, rfl⟩ := cycleWith_next hstep
  have hopened : MidCycleInv (openCycle s) :=
    midCycleInv_openCycle ⟨hslot, hmemories, hnumbered⟩
  have hacted : MidCycleInv u := midCycleInv_decodeAndExecute hact hopened
  exact blockInv_closeCycle hacted

end Sys2Proof.Machine
end

section
/-! PROOFS. What the loaders leave in memory (spec/30_encoding.md R82, R83;
spec/41_instruction_memory.md R120; spec/42_data_memory.md R140). -/

namespace Sys2Proof.Machine

open Sys2Proof.Claims

/-- Character `j` of a binary string is bit `length - 1 - j` of its value (00_scope.md R13). -/
theorem testBit_unsignedOf (s : BinString) {j : Nat} (hj : j < s.length) :
    (unsignedOf s).testBit (s.length - 1 - j) = decide (s[j]? = some '1') := by
  induction s generalizing j with
  | nil => simp at hj
  | cons c cs ih =>
    have hlt := unsignedOf_lt cs
    cases j with
    | zero =>
      by_cases hc : c = '1' <;>
        simp [unsignedOf, hc, Nat.testBit_two_pow_add_eq, Nat.testBit_lt_two_pow hlt]
    | succ j =>
      have hj' : j < cs.length := by simpa using hj
      have hbit : cs.length - 1 - j < cs.length := by omega
      have htail : (c :: cs).length - 1 - (j + 1) = cs.length - 1 - j := by
        simp only [List.length_cons]; omega
      rw [htail, List.getElem?_cons_succ, ← ih hj', unsignedOf]
      split_ifs with hc
      · exact Nat.testBit_two_pow_add_gt hbit _
      · rw [Nat.zero_add]

theorem length_of_validLine {line : List Char} (h : validLine line = true) : line.length = 8 := by
  simp only [validLine, Bool.and_eq_true, beq_iff_eq] at h
  exact h.1

theorem getLsbD_cellOfLine {l : List Char} (h : validLine l = true) {j : Nat} (hj : j < 8) :
    (cellOfLine l).getLsbD (7 - j) = decide (l[j]? = some '1') := by
  have hlen := length_of_validLine h
  have hbit := testBit_unsignedOf l (j := j) (by omega)
  rw [hlen] at hbit
  have hindex : 7 - j < 8 := by omega
  rw [cellOfLine, BitVec.getLsbD_ofNat, ← hbit, decide_eq_true hindex, Bool.true_and]

/-- The lines are read exactly when each is valid, and then cell by cell. -/
theorem cellsOfLines_ok_iff (which : ImageKind) (k : Nat) (lines : List (List Char))
    (bytes : List Byte) :
    cellsOfLines which k lines = .ok bytes ↔
      (∀ l ∈ lines, validLine l = true) ∧ bytes = lines.map cellOfLine := by
  induction lines generalizing k bytes with
  | nil => simp [cellsOfLines]
  | cons line rest ih =>
    rw [cellsOfLines, List.forall_mem_cons, List.map_cons]
    by_cases hline : validLine line = true
    · rw [if_pos hline]
      cases hrest : cellsOfLines which (k + 1) rest with
      | ok cells =>
        obtain ⟨hvalid, rfl⟩ := (ih (k + 1) cells).1 hrest
        simp only [Except.ok.injEq, eq_comm (a := bytes)]
        exact ⟨fun h => ⟨⟨hline, hvalid⟩, h⟩, And.right⟩
      | error e =>
        have hbad : ¬ ∀ l ∈ rest, validLine l = true := fun hvalid => by
          have hok := (ih (k + 1) _).2 ⟨hvalid, rfl⟩
          rw [hrest] at hok
          cases hok
        simp [hbad]
    · rw [if_neg hline]
      simp [hline]

/-- A memory that begins with the cells of valid lines shows the lines. -/
theorem cellsOfLines_ofBytes (size : Nat) {lines : List (List Char)}
    (h : ∀ l ∈ lines, validLine l = true) :
    CellsOfLines (Memory.ofBytes size (lines.map cellOfLine)) lines := by
  intro k l hk j hj
  have hbyte : (Memory.ofBytes size (lines.map cellOfLine)).byte k = cellOfLine l := by
    simp [byte_ofBytes, List.getD, hk]
  rw [hbyte, getLsbD_cellOfLine (h l (List.mem_of_getElem? hk)) hj]

theorem byte_ofBytes_of_length_le {bytes : List Byte} (size : Nat) {a : Nat}
    (h : bytes.length ≤ a) : (Memory.ofBytes size bytes).byte a = 0 := by
  rw [byte_ofBytes, List.getD_eq_default _ _ h, unsetCell]

theorem imemLoad_ok {image : Option ImageText} {m : Memory} (h : imemLoad image = .ok m) :
    ∃ bytes, readImage .instruction image = .ok bytes ∧ m = Memory.ofBytes bytes.length bytes := by
  cases hread : readImage .instruction image with
  | error e => simp [imemLoad, hread] at h
  | ok bytes =>
    simp only [imemLoad, hread, Except.ok.injEq] at h
    exact ⟨bytes, rfl, h.symm⟩

theorem dmemLoad_ok {capacity : Nat} {image : Option ImageText} {m : Memory}
    (h : dmemLoad capacity image = .ok m) :
    ∃ bytes, readImage .data image = .ok bytes ∧ bytes.length ≤ capacity ∧
      m = Memory.ofBytes capacity bytes := by
  cases hread : readImage .data image with
  | error e => simp [dmemLoad, hread] at h
  | ok bytes =>
    simp only [dmemLoad, hread] at h
    split_ifs at h with hsize
    cases h
    exact ⟨bytes, rfl, by omega, rfl⟩

end Sys2Proof.Machine
end

section
/-! PROOFS. The startup sequence and the state it leaves (spec/10_state.md R40;
spec/70_reset_and_hazards.md R330, R331). -/

namespace Sys2Proof.Machine

open Sys2Proof.Claims

theorem startup_ok {capacity : Nat} {ti td : Option ImageText} {s : State}
    (h : startup capacity ti td = .ok s) :
    ∃ imem dmem, imemLoad ti = .ok imem ∧ dmemLoad capacity td = .ok dmem ∧
      s = State.resetWith imem dmem := by
  cases hi : imemLoad ti with
  | error e => simp [startup, hi] at h
  | ok imem =>
    cases hd : dmemLoad capacity td with
    | error e => simp [startup, hi, hd] at h
    | ok dmem =>
      simp only [startup, hi, hd, Except.ok.injEq] at h
      exact ⟨imem, dmem, rfl, rfl, h.symm⟩

/-- Settles O39: the memories are those of the loaders, the rest is read off the reset state. -/
theorem startupStateValues : Obligations.StartupStateValues := by
  intro capacity ti td s h
  obtain ⟨imem, dmem, himem, hdmem, rfl⟩ := startup_ok h
  obtain ⟨ibytes, hiread, rfl⟩ := imemLoad_ok himem
  obtain ⟨dbytes, hdread, -, rfl⟩ := dmemLoad_ok hdmem
  obtain ⟨hivalid, rfl⟩ := (cellsOfLines_ok_iff _ _ _ _).1 hiread
  obtain ⟨hdvalid, rfl⟩ := (cellsOfLines_ok_iff _ _ _ _).1 hdread
  have hzeros : ∀ a, (imageLines td).length ≤ a →
      (Memory.ofBytes capacity ((imageLines td).map cellOfLine)).byte a = 0 := fun a ha =>
    byte_ofBytes_of_length_le capacity (by rwa [List.length_map])
  have hregs : ∀ r : RegIx, (Vector.replicate 32 (0 : Word))[r] = 0 := fun r =>
    Vector.getElem_replicate r.isLt
  exact ⟨⟨List.length_map _, cellsOfLines_ofBytes _ hivalid⟩,
    ⟨rfl, cellsOfLines_ofBytes _ hdvalid, hzeros⟩, hregs,
    rfl, rfl, rfl, rfl, rfl, rfl, rfl, rfl, rfl, rfl, rfl⟩

theorem blockInv_resetWith {imem dmem : Memory} (hi : imem.wf) (hd : dmem.wf) :
    blockInv (State.resetWith imem dmem) :=
  ⟨rfl, ⟨hi, hd⟩, rfl, ⟨rfl, rfl⟩, fun hpos => absurd hpos (lt_irrefl 0)⟩

theorem profileInv_resetWith {imem dmem : Memory} (hi : imem.wf) (hd : dmem.wf) :
    profileInv (State.resetWith imem dmem) :=
  ⟨blockInv_resetWith hi hd, rfl, rfl, rfl⟩

/-- Settles O52: the loaders leave canonical memories, and so do two empty images. -/
theorem invariantAtStartup : Obligations.InvariantAtStartup := by
  constructor
  · exact profileInv_resetWith (by simp [Memory.wf]) (by simp [Memory.wf])
  · intro capacity ti td s h
    obtain ⟨imem, dmem, himem, hdmem, rfl⟩ := startup_ok h
    obtain ⟨ibytes, -, rfl⟩ := imemLoad_ok himem
    obtain ⟨dbytes, -, hlen, rfl⟩ := dmemLoad_ok hdmem
    exact profileInv_resetWith (ofBytes_wf le_rfl) (ofBytes_wf hlen)

end Sys2Proof.Machine
end

section
/-! PROOFS. The latches under the test profile (spec/47_test_profile.md R252, R264 to R266): an
operation that completes leaves the IF latch live, at the default successor or at a checked target,
and writes no later stage. With the block's invariant this is the profile's (spec/20_memory.md R57:
the PC stays a multiple of 4). -/

namespace Sys2Proof.Machine

/-! ### What an operation leaves in `nxt` -/

@[simp] theorem setReg_nxt (s : State) (r : RegIx) (v : Int) : (setReg s r v).nxt = s.nxt := by
  unfold setReg; split_ifs <;> rfl

/-- `t` has the latches of `s` with the default successor, or with a target that passed the check. -/
def AdvancesLatches (s t : State) : Prop :=
  t.nxt = (afterSuccessor s).nxt ∨
    ∃ imm, targetOf s.cur.IF.PC imm % 4 = 0 ∧ t.nxt = (afterTarget s imm).nxt

section Forms

variable {s t : State} {f : Int → Int → Int} {cond : Int → Int → Bool} {rd rs1 rs2 : RegIx}
  {imm : Int}

theorem registerForm_advances (hf : ∀ a b, representable (f a b) 32 = true)
    (h : runPorts (registerForm f rd rs1 rs2) s = .next t) : AdvancesLatches s t := by
  rw [runPorts_registerForm hf] at h
  cases h
  exact .inl (setReg_nxt _ _ _)

theorem immediateForm_advances (hf : ∀ a b, representable (f a b) 32 = true)
    (h : runPorts (immediateForm f rd rs1 imm) s = .next t) : AdvancesLatches s t := by
  rw [runPorts_immediateForm hf] at h
  cases h
  exact .inl (setReg_nxt _ _ _)

theorem loadForm_advances (h : runPorts (loadForm rd rs1 imm) s = .next t) :
    AdvancesLatches s t := by
  rcases le_or_gt (effectiveAddress (regValue s.rf rs1.val) imm + 4) s.dmem.size with hin | hout
  · rw [runPorts_loadForm_ok _ _ _ _ hin] at h
    cases h
    exact .inl (setReg_nxt _ _ _)
  · rw [runPorts_loadForm_fault _ _ _ _ hout] at h
    cases h

theorem storeForm_advances (h : runPorts (storeForm rs2 rs1 imm) s = .next t) :
    AdvancesLatches s t := by
  rcases le_or_gt (effectiveAddress (regValue s.rf rs1.val) imm + 4) s.dmem.size with hin | hout
  · rw [runPorts_storeForm_ok _ _ _ _ hin] at h
    cases h
    exact .inl rfl
  · rw [runPorts_storeForm_fault _ _ _ _ hout] at h
    cases h

theorem branchForm_advances (h : runPorts (branchForm cond rs1 rs2 imm) s = .next t) :
    AdvancesLatches s t := by
  rw [runPorts_branchForm] at h
  split_ifs at h with hcond htarget
  · cases h
    exact .inr ⟨imm, htarget, rfl⟩
  · cases h
    exact .inl rfl

theorem jumpForm_advances (h : runPorts (jumpForm rd imm) s = .next t) : AdvancesLatches s t := by
  rw [runPorts_jumpForm] at h
  split_ifs at h with htarget
  cases h
  exact .inr ⟨imm, htarget, setReg_nxt _ _ _⟩

end Forms

theorem exec_advances {i : Instr} {s t : State} (hi : i ≠ .halt) (h : exec i s = .next t) :
    AdvancesLatches s t := by
  cases i with
  | add => exact registerForm_advances representable_sumOf h
  | sub => exact registerForm_advances representable_differenceOf h
  | xor => exact registerForm_advances representable_xorOf h
  | or => exact registerForm_advances representable_orOf h
  | and => exact registerForm_advances representable_andOf h
  | addi => exact immediateForm_advances representable_sumOf h
  | xori => exact immediateForm_advances representable_xorOf h
  | ori => exact immediateForm_advances representable_orOf h
  | andi => exact immediateForm_advances representable_andOf h
  | lw => exact loadForm_advances h
  | sw => exact storeForm_advances h
  | beq => exact branchForm_advances h
  | bne => exact branchForm_advances h
  | jal => exact jumpForm_advances h
  | halt => exact absurd rfl hi

/-! ### The cycle of the machine -/

/-- Every operation but `HALT`, which the executor never runs (R267), is its program in
`Execute_P`. -/
theorem exec_eq_runPorts {i : Instr} (hi : i ≠ .halt) (flag : Bool) (s : State) :
    exec i s = runPorts (executeP i flag) s := by
  cases i with
  | halt => exact absurd rfl hi
  | _ => rfl

/-- What steps 3 and 4 of the machine's cycle can complete to: the halt, of `HALT` or of a word in no
row, or the next state of an operation. -/
theorem decodeAndDispatch_next {flag : Bool} {w : Word} {s t : State}
    (h : decodeAndDispatch flag w s = .next t) :
    t = setHalted s ∨ ∃ i, decode w = .ok i ∧ i ≠ .halt ∧ exec i s = .next t := by
  cases hd : decode w with
  | error e =>
    simp only [decodeAndDispatch, hd, Host.Outcome.next.injEq] at h
    exact .inl h.symm
  | ok i =>
    simp only [decodeAndDispatch, hd] at h
    by_cases hi : i = .halt
    · subst hi
      cases h
      exact .inl rfl
    · exact .inr ⟨i, rfl, hi, h⟩

/-! ### The invariant -/

/-- The latches of the profile's invariant. -/
structure ProfileLatches (p : PipelineState) : Prop where
  aligned : p.IF.PC.toNat % 4 = 0
  live : p.IF.nop = false
  bubbles : { p with IF := resetLatches.IF } = resetLatches

theorem profileInv_iff (s : State) : profileInv s ↔ blockInv s ∧ ProfileLatches s.cur :=
  ⟨fun ⟨hblock, haligned, hlive, hbubbles⟩ => ⟨hblock, ⟨haligned, hlive, hbubbles⟩⟩,
    fun ⟨hblock, hlatches⟩ => ⟨hblock, hlatches.aligned, hlatches.live, hlatches.bubbles⟩⟩

/-- A live fetch at any multiple of 4: reduction modulo `2^32` keeps the alignment. -/
theorem ProfileLatches.fetchAt {p : PipelineState} (h : ProfileLatches p) {n : Nat}
    (hn : n % 4 = 0) : ProfileLatches { p with IF := { nop := false, PC := BitVec.ofNat 32 n } } where
  aligned := by
    rw [BitVec.toNat_ofNat]
    omega
  live := rfl
  bubbles := h.bubbles

theorem successorOf_aligned {pc : Word} (h : pc.toNat % 4 = 0) : successorOf pc % 4 = 0 := by
  unfold successorOf
  omega

theorem AdvancesLatches.profileLatches {s t : State} (h : AdvancesLatches s t)
    (hcur : s.cur.IF.PC.toNat % 4 = 0) (hnxt : ProfileLatches s.nxt) : ProfileLatches t.nxt := by
  rcases h with hsucc | ⟨imm, htarget, hjump⟩
  · rw [hsucc]
    exact hnxt.fetchAt (successorOf_aligned hcur)
  · rw [hjump]
    exact hnxt.fetchAt htarget

/-- Steps 3 and 4 keep what the opening of the cycle established of `nxt`. -/
theorem profileLatches_decodeAndDispatch {flag : Bool} {w : Word} {s t : State}
    (h : decodeAndDispatch flag w s = .next t) (hcur : s.cur.IF.PC.toNat % 4 = 0)
    (hnxt : ProfileLatches s.nxt) : ProfileLatches t.nxt := by
  rcases decodeAndDispatch_next h with rfl | ⟨i, -, hi, hexec⟩
  · exact hnxt
  · exact (exec_advances hi hexec).profileLatches hcur hnxt

theorem midCycleInv_decodeAndDispatch {flag : Bool} {w : Word} {s t : State}
    (h : decodeAndDispatch flag w s = .next t) (hs : MidCycleInv s) : MidCycleInv t := by
  rcases decodeAndDispatch_next h with rfl | ⟨i, -, hi, hexec⟩
  · exact midCycleInv_setHalted hs
  · rw [exec_eq_runPorts hi flag] at hexec
    exact midCycleInv_runPorts hexec hs

/-- Settles O51: open, act, close, for the block's invariant and for the latches. -/
theorem profileInvariantKept : Obligations.ProfileInvariantKept := by
  intro s t hs hstep
  obtain ⟨⟨hslot, hmemories, -, hnumbered, -⟩, hlatches⟩ := (profileInv_iff s).1 hs
  obtain ⟨-, w, u, -, hact, rfl⟩ := cycleWith_next hstep
  have hopened : MidCycleInv (openCycle s) :=
    midCycleInv_openCycle ⟨hslot, hmemories, hnumbered⟩
  have hacted : ProfileLatches u.nxt :=
    profileLatches_decodeAndDispatch hact (by rw [openCycle_cur]; exact hlatches.aligned)
      (by rw [openCycle_nxt]; exact hlatches)
  exact (profileInv_iff _).2
    ⟨blockInv_closeCycle (midCycleInv_decodeAndDispatch hact hopened), hacted⟩

end Sys2Proof.Machine
end

section
/-! PROOFS. Decoding an encoded instruction (spec/30_encoding.md R90 to R96): an encoded
word selects the row of its instruction, and the row builds the instruction back from its fields. -/

namespace Sys2Proof

open Sys2Proof.Machine Sys2Proof.Claims Sys2Proof.Laws

/-! ### The row of an instruction -/

/-- The place of an instruction's row in the table of R96. -/
def rowIndex : Instr → Fin 15
  | .add _ _ _ => 0
  | .sub _ _ _ => 1
  | .xor _ _ _ => 2
  | .or _ _ _ => 3
  | .and _ _ _ => 4
  | .addi _ _ _ => 5
  | .xori _ _ _ => 6
  | .ori _ _ _ => 7
  | .andi _ _ _ => 8
  | .lw _ _ _ => 9
  | .sw _ _ _ => 10
  | .beq _ _ _ => 11
  | .bne _ _ _ => 12
  | .jal _ _ => 13
  | .halt => 14

/-- The row of an instruction in the decoder's table. -/
def tableRow (i : Instr) : OpcodeRow := opcodeRows.get (rowIndex i)

theorem tableRow_mem (i : Instr) : tableRow i ∈ opcodeRows := List.get_mem _ _

theorem fixedBits_eq_tableRow (i : Instr) :
    fixedBits i = ((tableRow i).mask, (tableRow i).pattern) := by
  cases i <;> rfl

theorem fixedBits_eq_rowOf (i : Instr) : fixedBits i = rowOf i := by
  cases i <;> rfl

theorem encode_fixedBits (i : Instr) : encode i &&& (fixedBits i).1 = (fixedBits i).2 := by
  cases i with
  | add => exact EncodingMatches.add _ _ _
  | sub => exact EncodingMatches.sub _ _ _
  | xor => exact EncodingMatches.xor _ _ _
  | or => exact EncodingMatches.or _ _ _
  | and => exact EncodingMatches.and _ _ _
  | addi => exact EncodingMatches.addi _ _ _
  | xori => exact EncodingMatches.xori _ _ _
  | ori => exact EncodingMatches.ori _ _ _
  | andi => exact EncodingMatches.andi _ _ _
  | lw => exact EncodingMatches.lw _ _ _
  | sw => exact EncodingMatches.sw _ _ _
  | beq => exact EncodingMatches.beq _ _ _
  | bne => exact EncodingMatches.bne _ _ _
  | jal => exact EncodingMatches.jal _ _
  | halt => exact EncodingMatches.halt

theorem encode_selects_tableRow (i : Instr) :
    encode i &&& (tableRow i).mask = (tableRow i).pattern := by
  have h := encode_fixedBits i
  rwa [fixedBits_eq_tableRow] at h

/-! ### An admitted immediate is the value of its bits (R95) -/

theorem toInt_ofInt_of_wfImm12 {imm : Int} (h : wfImm12 imm = true) :
    (BitVec.ofInt 12 imm).toInt = imm := by
  obtain ⟨hlo, hhi⟩ := of_decide_eq_true h
  exact BitVec.toInt_ofInt_eq_self (by decide) hlo (by norm_num; omega)

theorem toInt_ofInt_of_wfImmB {imm : Int} (h : wfImmB imm = true) :
    (BitVec.ofInt 13 imm).toInt = imm := by
  obtain ⟨hlo, hhi, -⟩ := of_decide_eq_true h
  exact BitVec.toInt_ofInt_eq_self (by decide) hlo (by norm_num; omega)

theorem toInt_ofInt_of_wfImmJ {imm : Int} (h : wfImmJ imm = true) :
    (BitVec.ofInt 21 imm).toInt = imm := by
  obtain ⟨hlo, hhi, -⟩ := of_decide_eq_true h
  exact BitVec.toInt_ofInt_eq_self (by decide) hlo (by norm_num; omega)

/-- Bit 0 of an even immediate, which the formats B and J do not encode. -/
theorem getLsbD_zero_ofInt_of_even {n : Nat} {imm : Int} (h : imm % 2 = 0) :
    (BitVec.ofInt (n + 1) imm).getLsbD 0 = false := by
  have hdvd : (2 : Int) ∣ 2 ^ (n + 1) := dvd_pow_self 2 (Nat.succ_ne_zero n)
  have hmod : imm % 2 ^ (n + 1) % 2 = 0 := (Int.emod_emod_of_dvd imm hdvd).trans h
  rw [← BitVec.testBit_toNat, BitVec.toNat_ofInt, Nat.testBit_zero, decide_eq_false]
  push_cast
  omega

/-! ### Building from an encoded word, format by format (R90 to R94) -/

section Formats

variable {funct7 : BitVec 7} {funct3 : BitVec 3} {opcode : BitVec 7} (rd rs1 rs2 : RegIx)
  {imm : Int}

theorem buildR_encodeR (mk : RegIx → RegIx → RegIx → Instr) :
    buildR mk (encodeR funct7 funct3 opcode rd rs1 rs2) = mk rd rs1 rs2 := by
  obtain ⟨hrd, hrs1, hrs2⟩ := encodeR_fields funct7 funct3 opcode rd rs1 rs2
  rw [buildR, hrd, hrs1, hrs2]

theorem buildI_encodeI (mk : RegIx → RegIx → Int → Instr) (h : wfImm12 imm = true) :
    buildI mk (encodeI funct3 opcode rd rs1 imm) = mk rd rs1 imm := by
  obtain ⟨hrd, hrs1, himm⟩ := encodeI_fields funct3 opcode rd rs1 imm
  rw [buildI, hrd, hrs1, himm, toInt_ofInt_of_wfImm12 h]

theorem buildS_encodeS (mk : RegIx → RegIx → Int → Instr) (h : wfImm12 imm = true) :
    buildS mk (encodeS funct3 opcode rs1 rs2 (BitVec.ofInt 12 imm)) = mk rs2 rs1 imm := by
  obtain ⟨hrs2, hrs1, himm⟩ := encodeS_fields funct3 opcode rs1 rs2 (BitVec.ofInt 12 imm)
  rw [buildS, hrs2, hrs1, himm, toInt_ofInt_of_wfImm12 h]

theorem buildB_encodeB (mk : RegIx → RegIx → Int → Instr) (h : wfImmB imm = true) :
    buildB mk (encodeB funct3 opcode rs1 rs2 (BitVec.ofInt 13 imm)) = mk rs1 rs2 imm := by
  obtain ⟨-, -, heven⟩ := of_decide_eq_true h
  obtain ⟨hrs1, hrs2, himm⟩ :=
    encodeB_fields funct3 opcode rs1 rs2 (BitVec.ofInt 13 imm) (getLsbD_zero_ofInt_of_even heven)
  rw [buildB, hrs1, hrs2, himm, toInt_ofInt_of_wfImmB h]

theorem buildJ_encodeJ (mk : RegIx → Int → Instr) (h : wfImmJ imm = true) :
    buildJ mk (encodeJ opcode rd (BitVec.ofInt 21 imm)) = mk rd imm := by
  obtain ⟨-, -, heven⟩ := of_decide_eq_true h
  obtain ⟨hrd, himm⟩ :=
    encodeJ_fields opcode rd (BitVec.ofInt 21 imm) (getLsbD_zero_ofInt_of_even heven)
  rw [buildJ, hrd, himm, toInt_ofInt_of_wfImmJ h]

end Formats

theorem build_tableRow_encode {i : Instr} (h : i.wf = true) :
    (tableRow i).build (encode i) = i := by
  cases i with
  | add => exact buildR_encodeR _ _ _ .add
  | sub => exact buildR_encodeR _ _ _ .sub
  | xor => exact buildR_encodeR _ _ _ .xor
  | or => exact buildR_encodeR _ _ _ .or
  | and => exact buildR_encodeR _ _ _ .and
  | addi => exact buildI_encodeI _ _ .addi h
  | xori => exact buildI_encodeI _ _ .xori h
  | ori => exact buildI_encodeI _ _ .ori h
  | andi => exact buildI_encodeI _ _ .andi h
  | lw => exact buildI_encodeI _ _ .lw h
  | sw => exact buildS_encodeS _ _ .sw h
  | beq => exact buildB_encodeB _ _ .beq h
  | bne => exact buildB_encodeB _ _ .bne h
  | jal => exact buildJ_encodeJ _ .jal h
  | halt => rfl

/-- Settles O1: the word selects its instruction's row, which builds the instruction back. -/
theorem decodeOfEncode : Obligations.DecodeOfEncode := by
  intro i hwf
  calc decode (encode i) = .ok ((tableRow i).build (encode i)) :=
        decode_of_row (tableRow_mem i) (encode_selects_tableRow i)
    _ = .ok i := by rw [build_tableRow_encode hwf]

end Sys2Proof
end

section
/-! PROOFS. What a row builds from a word of the row encodes to that word again, with operands its
format admits (spec/30_encoding.md R90 to R95); with the round trip of the encoder, the opcode map
is exact (R96). -/

namespace Sys2Proof

open Sys2Proof.Machine Sys2Proof.Claims Sys2Proof.Laws

@[simp] theorem regBits_regField (b : BitVec 5) : regBits (regField b) = b := by
  simp [regBits, regField]

/-! ### Values of fields are admitted immediates (R95) -/

theorem wfImm12_toInt (b : BitVec 12) : wfImm12 b.toInt = true := by
  have hlo := b.le_toInt
  have hhi := b.toInt_lt
  norm_num at hlo hhi
  exact decide_eq_true ⟨hlo, by omega⟩

theorem wfImmB_toInt (b : BitVec 12) : wfImmB (b ++ 0#1).toInt = true := by
  have hlo := b.le_toInt
  have hhi := b.toInt_lt
  norm_num at hlo hhi
  rw [BitVec.toInt_append_zero]
  exact decide_eq_true ⟨by omega, by omega, by omega⟩

theorem wfImmJ_toInt (b : BitVec 20) : wfImmJ (b ++ 0#1).toInt = true := by
  have hlo := b.le_toInt
  have hhi := b.toInt_lt
  norm_num at hlo hhi
  rw [BitVec.toInt_append_zero]
  exact decide_eq_true ⟨by omega, by omega, by omega⟩

/-! ### Encoding the fields of a word -/

/-- Where a row's mask is all ones, a word that selects the row has the pattern's bits. -/
theorem extract_of_masked {w mask pattern : Word} (h : w &&& mask = pattern) {start len : Nat}
    (hmask : mask.extractLsb' start len = BitVec.allOnes len) :
    w.extractLsb' start len = pattern.extractLsb' start len := by
  rw [← h, BitVec.extractLsb'_and, hmask, BitVec.and_allOnes]

theorem encodeR_of_fields (w : Word) :
    encodeR (w.extractLsb' 25 7) (w.extractLsb' 12 3) (w.extractLsb' 0 7) (rdOf w) (rs1Of w)
      (rs2Of w) = w := by
  simp (disch := rfl) only [encodeR, rdOf, rs1Of, rs2Of, regBits_regField,
    BitVec.extractLsb'_append_extractLsb'_eq_extractLsb']
  exact BitVec.extractLsb'_eq_self

theorem encodeI_of_fields (w : Word) :
    encodeI (w.extractLsb' 12 3) (w.extractLsb' 0 7) (rdOf w) (rs1Of w) (immI w) = w := by
  simp (disch := rfl) only [encodeI, rdOf, rs1Of, immI, BitVec.ofInt_toInt, regBits_regField,
    BitVec.extractLsb'_append_extractLsb'_eq_extractLsb']
  exact BitVec.extractLsb'_eq_self

theorem encodeS_of_fields (w : Word) :
    encodeS (w.extractLsb' 12 3) (w.extractLsb' 0 7) (rs1Of w) (rs2Of w)
      (BitVec.ofInt 12 (immS w)) = w := by
  simp (disch := decide) only [encodeS, rs1Of, rs2Of, immS, BitVec.ofInt_toInt, regBits_regField,
    extract_hi, extract_lo, Nat.reduceSub, BitVec.extractLsb'_eq_self]
  simp (disch := rfl) only [BitVec.extractLsb'_append_extractLsb'_eq_extractLsb']
  exact BitVec.extractLsb'_eq_self

theorem encodeB_of_fields (w : Word) :
    encodeB (w.extractLsb' 12 3) (w.extractLsb' 0 7) (rs1Of w) (rs2Of w)
      (BitVec.ofInt 13 (immB w)) = w := by
  simp (disch := decide) only [encodeB, rs1Of, rs2Of, immB, BitVec.ofInt_toInt, regBits_regField,
    extract_hi, extract_lo, Nat.reduceSub, BitVec.extractLsb'_eq_self]
  simp (disch := rfl) only [BitVec.extractLsb'_append_extractLsb'_eq_extractLsb']
  exact BitVec.extractLsb'_eq_self

theorem encodeJ_of_fields (w : Word) :
    encodeJ (w.extractLsb' 0 7) (rdOf w) (BitVec.ofInt 21 (immJ w)) = w := by
  simp (disch := decide) only [encodeJ, rdOf, immJ, BitVec.ofInt_toInt, regBits_regField,
    extract_hi, extract_lo, Nat.reduceSub, BitVec.extractLsb'_eq_self]
  simp (disch := rfl) only [BitVec.extractLsb'_append_extractLsb'_eq_extractLsb']
  exact BitVec.extractLsb'_eq_self

/-! ### Encoding what a row builds -/

/-- Encoding what the row builds from a word of the row gives the word back. -/
def ReencodesRow (r : OpcodeRow) : Prop :=
  ∀ w : Word, w &&& r.mask = r.pattern → encode (r.build w) = w ∧ (r.build w).wf = true

section Rows

variable {w pattern : Word} {mk : RegIx → RegIx → RegIx → Instr}
  {mkImm : RegIx → RegIx → Int → Instr} {mkJump : RegIx → Int → Instr}

theorem encode_buildR (hw : w &&& 0xFE00707F = pattern)
    (henc : ∀ rd rs1 rs2, encode (mk rd rs1 rs2) = encodeR (pattern.extractLsb' 25 7)
      (pattern.extractLsb' 12 3) (pattern.extractLsb' 0 7) rd rs1 rs2)
    (hwf : ∀ rd rs1 rs2, (mk rd rs1 rs2).wf = true) :
    encode (buildR mk w) = w ∧ (buildR mk w).wf = true := by
  refine ⟨?_, hwf _ _ _⟩
  rw [buildR, henc, ← extract_of_masked hw (by decide), ← extract_of_masked hw (by decide),
    ← extract_of_masked hw (by decide), encodeR_of_fields]

theorem encode_buildI (hw : w &&& 0x0000707F = pattern)
    (henc : ∀ rd rs1 imm, encode (mkImm rd rs1 imm) = encodeI (pattern.extractLsb' 12 3)
      (pattern.extractLsb' 0 7) rd rs1 imm)
    (hwf : ∀ rd rs1 imm, (mkImm rd rs1 imm).wf = wfImm12 imm) :
    encode (buildI mkImm w) = w ∧ (buildI mkImm w).wf = true := by
  refine ⟨?_, (hwf _ _ _).trans (wfImm12_toInt _)⟩
  rw [buildI, henc, ← extract_of_masked hw (by decide), ← extract_of_masked hw (by decide),
    encodeI_of_fields]

theorem encode_buildS (hw : w &&& 0x0000707F = pattern)
    (henc : ∀ rs2 rs1 imm, encode (mkImm rs2 rs1 imm) = encodeS (pattern.extractLsb' 12 3)
      (pattern.extractLsb' 0 7) rs1 rs2 (BitVec.ofInt 12 imm))
    (hwf : ∀ rs2 rs1 imm, (mkImm rs2 rs1 imm).wf = wfImm12 imm) :
    encode (buildS mkImm w) = w ∧ (buildS mkImm w).wf = true := by
  refine ⟨?_, (hwf _ _ _).trans (wfImm12_toInt _)⟩
  rw [buildS, henc, ← extract_of_masked hw (by decide), ← extract_of_masked hw (by decide),
    encodeS_of_fields]

theorem encode_buildB (hw : w &&& 0x0000707F = pattern)
    (henc : ∀ rs1 rs2 imm, encode (mkImm rs1 rs2 imm) = encodeB (pattern.extractLsb' 12 3)
      (pattern.extractLsb' 0 7) rs1 rs2 (BitVec.ofInt 13 imm))
    (hwf : ∀ rs1 rs2 imm, (mkImm rs1 rs2 imm).wf = wfImmB imm) :
    encode (buildB mkImm w) = w ∧ (buildB mkImm w).wf = true := by
  refine ⟨?_, (hwf _ _ _).trans (wfImmB_toInt _)⟩
  rw [buildB, henc, ← extract_of_masked hw (by decide), ← extract_of_masked hw (by decide),
    encodeB_of_fields]

theorem encode_buildJ (hw : w &&& 0x0000007F = pattern)
    (henc : ∀ rd imm, encode (mkJump rd imm) = encodeJ (pattern.extractLsb' 0 7) rd
      (BitVec.ofInt 21 imm))
    (hwf : ∀ rd imm, (mkJump rd imm).wf = wfImmJ imm) :
    encode (buildJ mkJump w) = w ∧ (buildJ mkJump w).wf = true := by
  refine ⟨?_, (hwf _ _).trans (wfImmJ_toInt _)⟩
  rw [buildJ, henc, ← extract_of_masked hw (by decide), encodeJ_of_fields]

end Rows

theorem reencodesRow_of_mem : ∀ r ∈ opcodeRows, ReencodesRow r := by
  simp only [opcodeRows, List.forall_mem_cons]
  refine ⟨?add, ?sub, ?xor, ?or, ?and, ?addi, ?xori, ?ori, ?andi, ?lw, ?sw, ?beq, ?bne, ?jal,
    ?halt, List.forall_mem_nil _⟩
  case add | sub | xor | or | and =>
    exact fun w hw => encode_buildR hw (fun _ _ _ => rfl) (fun _ _ _ => rfl)
  case addi | xori | ori | andi | lw =>
    exact fun w hw => encode_buildI hw (fun _ _ _ => rfl) (fun _ _ _ => rfl)
  case sw => exact fun w hw => encode_buildS hw (fun _ _ _ => rfl) (fun _ _ _ => rfl)
  case beq | bne => exact fun w hw => encode_buildB hw (fun _ _ _ => rfl) (fun _ _ _ => rfl)
  case jal => exact fun w hw => encode_buildJ hw (fun _ _ => rfl) (fun _ _ => rfl)
  case halt => exact fun w hw => ⟨hw.symm.trans BitVec.and_allOnes, rfl⟩

theorem decode_ok {w : Word} {i : Instr} (h : decode w = .ok i) :
    ∃ r ∈ opcodeRows, w &&& r.mask = r.pattern ∧ i = r.build w := by
  rcases decode_cases w with ⟨r, hr, hw, hd⟩ | ⟨-, hd⟩
  · rw [hd, Except.ok.injEq] at h
    exact ⟨r, hr, hw, h.symm⟩
  · rw [hd] at h
    cases h

/-- Settles O2, row by row. -/
theorem encodeOfDecode : Obligations.EncodeOfDecode := by
  intro w i h
  obtain ⟨r, hr, hw, rfl⟩ := decode_ok h
  exact reencodesRow_of_mem r hr w hw

/-! ### The opcode map (R96) -/

/-- The rows of R96 as masks and patterns are the decoder's table. -/
theorem operationRows_append_halt :
    operationRows ++ [(0xFFFFFFFF, 0xFFFFFFFF)] = opcodeRows.map fun r => (r.mask, r.pattern) := rfl

theorem rowOf_mem_operationRows {i : Instr} (h : i ≠ .halt) : rowOf i ∈ operationRows := by
  cases i with
  | halt => exact absurd rfl h
  | _ => simp [rowOf, operationRows]

theorem exists_opcodeRow_of_mem {r : Word × Word} (h : r ∈ operationRows) :
    ∃ q ∈ opcodeRows, (q.mask, q.pattern) = r := by
  rw [← List.mem_map, ← operationRows_append_halt]
  exact List.mem_append_left _ h

theorem haltWord_selects_no_operation : ∀ r ∈ operationRows, Config.haltWord &&& r.1 ≠ r.2 := by
  simp [operationRows, Config.haltWord]

theorem decode_selects_rowOf {w : Word} {i : Instr} (h : decode w = .ok i) :
    w &&& (rowOf i).1 = (rowOf i).2 := by
  rw [← (encodeOfDecode w i h).1, ← fixedBits_eq_rowOf]
  exact encode_fixedBits i

theorem decode_halt_iff (w : Word) : decode w = .ok .halt ↔ w = Config.haltWord := by
  constructor
  · exact fun h => (encodeOfDecode w .halt h).1.symm
  · rintro rfl
    exact decodeOfEncode .halt rfl

@[simp] theorem decodeP_haltWord : decodeP Config.haltWord = none := if_pos rfl

/-- `Decode_P` gives the operations that `decode` gives, `HALT` not being one (R251, R267). -/
theorem decodeP_eq_some_iff (w : Word) (i : Instr) :
    decodeP w = some i ↔ decode w = .ok i ∧ i ≠ .halt := by
  by_cases hw : w = Config.haltWord
  · have hd := (decode_halt_iff w).2 hw
    simp [hw ▸ decodeP_haltWord, hd, eq_comm]
  · have hne : decode w ≠ .ok .halt := mt (decode_halt_iff w).1 hw
    rw [decodeP, if_neg hw]
    cases hd : decode w with
    | error e => simp
    | ok j =>
      rw [hd] at hne
      simp only [Option.some.injEq, Except.ok.injEq]
      exact ⟨fun h => ⟨h, fun hi => hne (by rw [h, hi])⟩, And.left⟩

theorem decodeP_isSome_iff (w : Word) :
    (decodeP w).isSome = true ↔ ∃ r ∈ operationRows, w &&& r.1 = r.2 := by
  rw [Option.isSome_iff_exists]
  constructor
  · rintro ⟨i, hi⟩
    obtain ⟨hd, hne⟩ := (decodeP_eq_some_iff w i).1 hi
    exact ⟨rowOf i, rowOf_mem_operationRows hne, decode_selects_rowOf hd⟩
  · rintro ⟨r, hr, hw⟩
    have hne : w ≠ Config.haltWord := by
      rintro rfl
      exact haltWord_selects_no_operation r hr hw
    obtain ⟨q, hq, rfl⟩ := exists_opcodeRow_of_mem hr
    have hd : decode w = .ok (q.build w) := decode_of_row hq hw
    refine ⟨q.build w, (decodeP_eq_some_iff w _).2 ⟨hd, fun hhalt => ?_⟩⟩
    exact hne ((decode_halt_iff w).1 (hd.trans (congrArg _ hhalt)))

theorem length_filter_le_one {α : Type} {p : α → Bool} {l : List α}
    (h : l.Pairwise fun a b => p a = true → p b = false) : (l.filter p).length ≤ 1 := by
  have hnone : (l.filter p).Pairwise fun _ _ => False :=
    List.pairwise_filter.2 (h.imp fun hab ha hb => by simp [hab ha] at hb)
  by_contra hlen
  exact List.pairwise_iff_getElem.1 hnone 0 1 (by omega) (by omega) Nat.zero_lt_one

theorem selected_rows_length_le_one (w : Word) :
    (opcodeRows.filter fun r => r.selects w).length ≤ 1 :=
  length_filter_le_one (opcodeRows_disjoint.imp not_both_selected)

/-- Settles O3: a word that decodes is the encoding of an instruction of its row, and the
statement's rows are the decoder's. -/
theorem opcodeMapExact : Obligations.OpcodeMapExact := by
  refine ⟨decodeP_isSome_iff, fun w i => decode_selects_rowOf, decode_halt_iff, decodeP_haltWord,
    fun w => ?_⟩
  rw [operationRows_append_halt, List.filter_map, List.length_map]
  exact selected_rows_length_le_one w

/-- Settles O4, by evaluation. -/
theorem wordsOfEachFormat : Obligations.WordsOfEachFormat := by
  unfold Obligations.WordsOfEachFormat
  decide

end Sys2Proof
end

section
/-! PROOFS. A cycle whose word is no operation (spec/30_encoding.md R87, R97;
spec/45_fetch_and_execution_loop.md R205): it halts, closes and leaves everything else as it was. -/

namespace Sys2Proof.Machine

open Sys2Proof.Claims

theorem enabled_of_hasStep {s : State} (h : HasStep s) : enabled s = true := (enabled_iff s).2 h

theorem iFetch_of_fetchInside {s : State} (h : FetchInside s) :
    iFetch s.imem s.cur.IF.PC.toNat = .ok (fetchedWord s) := iFetch_ok h

theorem closeCycle_eq_closed (u : State) : closeCycle u = closed u := rfl

theorem setHalted_openCycle (s : State) :
    setHalted (openCycle s) = { s with nxt := s.cur, halted := true } := by
  unfold openCycle ifNopCheck
  split <;> rfl

theorem decodeP_eq_none_iff (w : Word) :
    decodeP w = none ↔ ∀ r ∈ operationRows, w &&& r.1 ≠ r.2 := by
  rw [← Option.not_isSome_iff_eq_none, decodeP_isSome_iff]
  simp only [not_exists, not_and, ne_eq]

/-- Steps 3 and 4 on a word that is no operation, whether `HALT` or in no row (R87, R205). -/
theorem decodeAndDispatch_of_decodeP_none {w : Word} (h : decodeP w = none) (flag : Bool)
    (s : State) : decodeAndDispatch flag w s = .next (setHalted s) := by
  cases hd : decode w with
  | error e => simp only [decodeAndDispatch, hd]
  | ok i =>
    have hi : i = .halt := by
      by_contra hne
      rw [(decodeP_eq_some_iff w i).2 ⟨hd, hne⟩] at h
      cases h
    subst hi
    simp only [decodeAndDispatch, hd]
    rfl

theorem step_of_decodeP_none {s : State} (hs : HasStep s) (hin : FetchInside s)
    (h : decodeP (fetchedWord s) = none) :
    step s = .next (closed { s with nxt := s.cur, halted := true }) := by
  rw [step, cycleWith_fetched (enabled_of_hasStep hs) (iFetch_of_fetchInside hin),
    decodeAndDispatch_of_decodeP_none h, closeOutcome_next, closeCycle_eq_closed,
    setHalted_openCycle]

/-- Settles O21: in no operation row is the same as decoding to none, and such a word halts. -/
theorem unlistedWordHalts : Obligations.UnlistedWordHalts := by
  refine ⟨fun s hs hin hrows => ?_, by decide, by decide, by decide, by decide⟩
  have hnone : decodeP (fetchedWord s) = none := (decodeP_eq_none_iff _).2 hrows
  exact ⟨hnone, step_of_decodeP_none hs hin hnone⟩

end Sys2Proof.Machine
end

section
/-! PROOFS. The lines of an image (spec/30_encoding.md section 2, R83): the pieces of a text between
its newlines, without the carriage returns of the terminators. -/

namespace Sys2Proof.Machine

/-! ### Cutting a text at its newlines -/

theorem splitAtNewlines_ne_nil (text : ImageText) : splitAtNewlines text ≠ [] := by
  cases text with
  | nil => simp [splitAtNewlines]
  | cons c cs =>
    unfold splitAtNewlines
    split_ifs
    · simp
    · split <;> simp

/-- A character that is no newline extends the first piece. -/
theorem splitAtNewlines_cons {c : Char} (hc : c ≠ '\n') {text piece : List Char}
    {pieces : List (List Char)} (h : splitAtNewlines text = piece :: pieces) :
    splitAtNewlines (c :: text) = (c :: piece) :: pieces := by
  rw [splitAtNewlines, if_neg hc, h]

theorem splitAtNewlines_of_newline_notMem {line : List Char} (h : '\n' ∉ line) :
    splitAtNewlines line = [line] := by
  induction line with
  | nil => rfl
  | cons c cs ih =>
    obtain ⟨hc, hcs⟩ := List.ne_and_not_mem_of_not_mem_cons h
    exact splitAtNewlines_cons (Ne.symm hc) (ih hcs)

theorem splitAtNewlines_append_newline {line : List Char} (h : '\n' ∉ line) (text : ImageText) :
    splitAtNewlines (line ++ '\n' :: text) = line :: splitAtNewlines text := by
  induction line with
  | nil => simp [splitAtNewlines]
  | cons c cs ih =>
    obtain ⟨hc, hcs⟩ := List.ne_and_not_mem_of_not_mem_cons h
    exact splitAtNewlines_cons (Ne.symm hc) (ih hcs)

theorem splitAtNewlines_terminated {pieces : List (List Char)} (h : ∀ l ∈ pieces, '\n' ∉ l)
    {last : List Char} (hlast : '\n' ∉ last) :
    splitAtNewlines ((pieces.flatMap fun l => l ++ ['\n']) ++ last) = pieces ++ [last] := by
  induction pieces with
  | nil => exact splitAtNewlines_of_newline_notMem hlast
  | cons piece pieces ih =>
    obtain ⟨hpiece, hpieces⟩ := List.forall_mem_cons.1 h
    have hcut := splitAtNewlines_append_newline hpiece
      ((pieces.flatMap fun l => l ++ ['\n']) ++ last)
    simpa [ih hpieces] using hcut

theorem imageLines_terminated {pieces : List (List Char)} (h : ∀ l ∈ pieces, '\n' ∉ l)
    {last : List Char} (hlast : '\n' ∉ last) :
    imageLines ((pieces.flatMap fun l => l ++ ['\n']) ++ last) =
      pieces.map dropCarriageReturn ++ if last = [] then [] else [last] := by
  simp only [imageLines, splitAtNewlines_terminated h hlast, List.dropLast_concat,
    List.getLast?_concat]
  split_ifs <;> simp

/-! ### Carriage returns -/

theorem dropCarriageReturn_of_notMem {line : List Char} (h : '\r' ∉ line) :
    dropCarriageReturn line = line := if_neg fun hlast => h (List.mem_of_getLast? hlast)

theorem dropCarriageReturn_append (line : List Char) :
    dropCarriageReturn (line ++ ['\r']) = line := by
  simp [dropCarriageReturn]

/-- A line holds no character of a terminator (R83). -/
def NoTerminator (line : List Char) : Prop := ∀ c ∈ line, c ≠ '\n' ∧ c ≠ '\r'

theorem NoTerminator.newline_notMem {line : List Char} (h : NoTerminator line) : '\n' ∉ line :=
  fun hmem => (h _ hmem).1 rfl

theorem NoTerminator.carriageReturn_notMem {line : List Char} (h : NoTerminator line) :
    '\r' ∉ line := fun hmem => (h _ hmem).2 rfl

section Lines

variable {lines : List (List Char)} (h : ∀ l ∈ lines, NoTerminator l)
include h

/-- Lines that a newline ends, and a last one that none ends, if it is not empty. -/
theorem imageLines_newlines {last : List Char} (hlast : NoTerminator last) :
    imageLines ((lines.flatMap fun l => l ++ ['\n']) ++ last) =
      lines ++ if last = [] then [] else [last] := by
  have hkept : lines.map dropCarriageReturn = lines := by
    refine (List.map_congr_left fun l hl => ?_).trans (List.map_id lines)
    exact dropCarriageReturn_of_notMem (h l hl).carriageReturn_notMem
  rw [imageLines_terminated (fun l hl => (h l hl).newline_notMem) hlast.newline_notMem, hkept]

theorem imageLines_newlines_all : imageLines (lines.flatMap fun l => l ++ ['\n']) = lines := by
  simpa using imageLines_newlines h (last := []) (by simp [NoTerminator])

theorem imageLines_carriageReturns :
    imageLines (lines.flatMap fun l => l ++ ['\r', '\n']) = lines := by
  have hpieces : ∀ l ∈ lines.map (· ++ ['\r']), '\n' ∉ l := by
    simp only [List.forall_mem_map, List.mem_append, List.mem_singleton]
    exact fun l hl hmem => hmem.elim (h l hl).newline_notMem (by decide)
  have hlines := imageLines_terminated hpieces (last := []) (by simp)
  simpa [List.flatMap_map, Function.comp_def, dropCarriageReturn_append] using hlines

end Lines

/-- Settles O36: the cut at newlines, with each terminator and with a last line that has none. -/
theorem imageLinesRule : Obligations.ImageLinesRule := by
  intro lines h
  refine ⟨imageLines_newlines_all h, imageLines_carriageReturns h, fun last hne hlast => ?_⟩
  rw [imageLines_newlines h hlast, if_neg hne]

end Sys2Proof.Machine
end

section
/-! PROOFS. The dump as an image (spec/30_encoding.md R82; spec/42_data_memory.md R140, R143): each
rendered cell is a valid line that denotes the cell, and a canonical memory is determined by its
cells. -/

namespace Sys2Proof.Machine

/-! ### A rendered cell -/

theorem getElem?_stringOfBits {w : Nat} (b : BitVec w) {j : Nat} (hj : j < w) :
    (stringOfBits b)[j]? = some (if b.getLsbD (w - 1 - j) then '1' else '0') := by
  simp [stringOfBits, hj]

theorem isBinaryDigit_of_mem_stringOfBits {w : Nat} {b : BitVec w} {c : Char}
    (h : c ∈ stringOfBits b) : isBinaryDigit c = true := by
  obtain ⟨k, -, rfl⟩ := List.mem_map.1 h
  split_ifs <;> rfl

theorem validLine_renderCell (b : Byte) : validLine (renderCell b) = true := by
  have hlength : (renderCell b).length = 8 := by simp [renderCell, stringOfBits]
  have hdigits : (renderCell b).all isBinaryDigit = true :=
    List.all_eq_true.2 fun c hc => isBinaryDigit_of_mem_stringOfBits hc
  simp [validLine, hlength, hdigits]

theorem noTerminator_renderCell (b : Byte) : NoTerminator (renderCell b) := by
  intro c hc
  have hdigit := isBinaryDigit_of_mem_stringOfBits hc
  constructor <;> rintro rfl <;> exact absurd hdigit (by decide)

theorem cellOfLine_renderCell (b : Byte) : cellOfLine (renderCell b) = b := by
  apply BitVec.eq_of_getLsbD_eq
  intro i hi
  obtain ⟨j, hj, rfl⟩ : ∃ j < 8, i = 7 - j := ⟨7 - i, by omega, by omega⟩
  rw [getLsbD_cellOfLine (validLine_renderCell b) hj, renderCell, getElem?_stringOfBits b hj]
  cases b.getLsbD (7 - j) <;> rfl

/-! ### A rendered dump -/

theorem imageLines_renderDump (cells : List Byte) :
    imageLines (renderDump cells) = cells.map renderCell := by
  have hlines : ∀ l ∈ cells.map renderCell, NoTerminator l :=
    List.forall_mem_map.2 fun b _ => noTerminator_renderCell b
  have hread := imageLines_newlines_all hlines
  rw [List.flatMap_map] at hread
  exact hread

theorem readImage_renderDump (which : ImageKind) (cells : List Byte) :
    readImage which (some (renderDump cells)) = .ok cells := by
  rw [readImage, imageLines_renderDump, cellsOfLines_ok_iff, List.map_map]
  constructor
  · exact List.forall_mem_map.2 fun b _ => validLine_renderCell b
  · exact (List.map_id'' cellOfLine_renderCell cells).symm

theorem dmemLoad_renderDump {capacity : Nat} {cells : List Byte} (h : cells.length ≤ capacity) :
    dmemLoad capacity (some (renderDump cells)) = .ok (Memory.ofBytes capacity cells) := by
  simp only [dmemLoad, readImage_renderDump, if_neg (Nat.not_lt.2 h)]

/-! ### The cells of a canonical memory -/

@[simp] theorem length_bytes (m : Memory) : m.bytes.length = m.size := by simp [Memory.bytes]

theorem lookupCell_of_not_listed {a : Nat} {cells : List Host.Cell} (h : ∀ c ∈ cells, c.1 ≠ a) :
    lookupCell a cells = unsetCell := by
  induction cells with
  | nil => rfl
  | cons c cells ih =>
    obtain ⟨hc, hcells⟩ := List.forall_mem_cons.1 h
    rw [lookupCell, if_neg hc, ih hcells]

theorem byte_of_size_le {m : Memory} (h : m.wf) {a : Nat} (ha : m.size ≤ a) :
    m.byte a = unsetCell :=
  lookupCell_of_not_listed fun c hc => ne_of_lt (lt_of_lt_of_le (h.2 c hc).1 ha)

theorem ofBytes_bytes {m : Memory} (h : m.wf) : Memory.ofBytes m.size m.bytes = m := by
  refine memory_ext (ofBytes_wf (length_bytes m).le) h rfl fun n => ?_
  rw [byte_ofBytes]
  rcases lt_or_ge n m.size with hn | hn
  · simp [Memory.bytes, hn]
  · rw [byte_of_size_le h hn, List.getD_eq_default _ _ (by rwa [length_bytes])]

/-- Settles O33: the text is read back as the dumped cells, which determine the memory. -/
theorem dumpReloads : Obligations.DumpReloads := by
  intro s h
  rw [memDump, dmemLoad_renderDump (length_bytes s.dmem).le, ofBytes_bytes h]

end Sys2Proof.Machine
end

section
/-! PROOFS. The codec on strings is the two's-complement reading of their bits (spec/40_codec.md
R101 to R105). Every statement goes through `stringOfBits`: a binary string is the string of a bit
pattern, `codecDecode` reads the pattern's signed value and `codecEncode` writes the pattern of a
value. -/

namespace Sys2Proof.Machine

/-! ### Binary strings and bit patterns -/

theorem all_isBinaryDigit_iff (s : BinString) :
    s.all isBinaryDigit = true ↔ ∀ c ∈ s, c = '0' ∨ c = '1' := by
  simp [isBinaryDigit]

@[simp] theorem length_stringOfBits {w : Nat} (b : BitVec w) : (stringOfBits b).length = w := by
  simp [stringOfBits]

theorem all_isBinaryDigit_stringOfBits {w : Nat} (b : BitVec w) :
    (stringOfBits b).all isBinaryDigit = true :=
  List.all_eq_true.2 fun _ hc => isBinaryDigit_of_mem_stringOfBits hc

/-- Bit `i` of the value is character `w - 1 - i`, which is bit `i` of the pattern (R13). -/
@[simp] theorem unsignedOf_stringOfBits {w : Nat} (b : BitVec w) :
    unsignedOf (stringOfBits b) = b.toNat := by
  have hlt : unsignedOf (stringOfBits b) < 2 ^ w := by
    simpa using unsignedOf_lt (stringOfBits b)
  have hpattern : BitVec.ofNat w (unsignedOf (stringOfBits b)) = b := by
    refine BitVec.eq_of_getLsbD_eq fun i hi => ?_
    obtain ⟨j, hj, rfl⟩ : ∃ j < w, i = w - 1 - j := ⟨w - 1 - i, by omega, by omega⟩
    have hbit := testBit_unsignedOf (stringOfBits b) (j := j) (by simpa using hj)
    rw [length_stringOfBits, getElem?_stringOfBits b hj] at hbit
    rw [BitVec.getLsbD_ofNat, hbit, decide_eq_true hi, Bool.true_and]
    cases b.getLsbD (w - 1 - j) <;> rfl
  rw [← Nat.mod_eq_of_lt hlt, ← BitVec.toNat_ofNat, hpattern]

theorem stringOfBits_injective (w : Nat) :
    Function.Injective (stringOfBits : BitVec w → BinString) := by
  intro b c h
  apply BitVec.eq_of_toNat_eq
  rw [← unsignedOf_stringOfBits b, h, unsignedOf_stringOfBits]

/-- Every binary string is the string of a bit pattern: that of its value, at its length. -/
theorem eq_stringOfBits {s : BinString} {w u : Nat} (hs : s.all isBinaryDigit = true)
    (hlength : s.length = w) (hvalue : unsignedOf s = u) : s = stringOfBits (BitVec.ofNat w u) := by
  subst hlength hvalue
  refine binaryString_ext hs (all_isBinaryDigit_stringOfBits _) (length_stringOfBits _).symm ?_
  rw [unsignedOf_stringOfBits, BitVec.toNat_ofNat, Nat.mod_eq_of_lt (unsignedOf_lt s)]

/-- R101's magnitude: the sum of the powers of two at the ones. -/
theorem unsignedOf_eq_sum (s : BinString) :
    (unsignedOf s : Int) =
      ∑ k ∈ Finset.range s.length, if s[k]? = some '1' then 2 ^ (s.length - 1 - k) else 0 := by
  induction s with
  | nil => rfl
  | cons c cs ih =>
    rw [unsignedOf, List.length_cons, Finset.sum_range_succ', add_comm, Nat.cast_add, ih]
    simp [Nat.sub_sub, add_comm 1]

/-! ### Decoding -/

theorem codecDecode_ok {s : BinString} (hne : s ≠ []) (hs : s.all isBinaryDigit = true) :
    codecDecode s =
      .ok ((unsignedOf s : Int) - if s[0]? = some '1' then 2 ^ s.length else 0) := by
  rw [codecDecode, if_neg (by simp [hne, hs]), List.head?_eq_getElem?]
  split_ifs <;> simp

theorem codecDecode_error {s : BinString} (h : s = [] ∨ s.all isBinaryDigit = false) :
    codecDecode s = .error (.codecBadString s) := if_pos h

/-- The first character of the string is the sign bit of the pattern. -/
theorem codecDecode_stringOfBits {w : Nat} (hw : 0 < w) (b : BitVec w) :
    codecDecode (stringOfBits b) = .ok b.toInt := by
  have hne : stringOfBits b ≠ [] := List.ne_nil_of_length_pos (by simpa using hw)
  rw [codecDecode_ok hne (all_isBinaryDigit_stringOfBits b), getElem?_stringOfBits b hw,
    unsignedOf_stringOfBits, length_stringOfBits, BitVec.toInt_eq_msb_cond, Nat.sub_zero,
    ← BitVec.msb_eq_getLsbD_last]
  cases b.msb <;> simp

/-! ### Encoding -/

theorem codecEncode_error {v : Int} {w : Nat} (h : representable v w = false) :
    codecEncode v w = .error (.codecRange v w) := if_pos h

/-- The digits of a value with bit `w - 1` set fill the width, so R102 never pads with a 1. -/
theorem length_binaryDigits_eq {u w : Nat} (hw : 0 < w) (hu : u < 2 ^ w) (hbig : 2 ^ (w - 1) ≤ u) :
    (binaryDigits w u).length = w := by
  obtain ⟨-, hvalue, -, hle, -⟩ := binaryDigits_spec w u hw hu
  have hlt : u < 2 ^ (binaryDigits w u).length := by
    simpa only [hvalue] using unsignedOf_lt (binaryDigits w u)
  have hlen : w - 1 < (binaryDigits w u).length :=
    (Nat.pow_lt_pow_iff_right one_lt_two).1 (hbig.trans_lt hlt)
  omega

/-- The padded digits of `u` are the string of its pattern. -/
theorem padded_eq_stringOfBits {u w : Nat} {pad : Char} (hw : 0 < w) (hu : u < 2 ^ w)
    (hpad : pad = '0' ∨ 2 ^ (w - 1) ≤ u) :
    List.replicate (w - (binaryDigits w u).length) pad ++ binaryDigits w u =
      stringOfBits (BitVec.ofNat w u) := by
  obtain ⟨hbinary, hvalue, -, hle, -⟩ := binaryDigits_spec w u hw hu
  rcases hpad with rfl | hbig
  · apply eq_stringOfBits
    · simp [hbinary, isBinaryDigit]
    · simp [hle]
    · rw [unsignedOf_append, unsignedOf_replicate_zero, hvalue, Nat.zero_mul, Nat.zero_add]
  · have hlength := length_binaryDigits_eq hw hu hbig
    rw [hlength, Nat.sub_self, List.replicate_zero, List.nil_append]
    exact eq_stringOfBits hbinary hlength hvalue

/-- R102's `u` has the pattern of `v`, on both sides of 0; where `v` is negative its first digit is
a 1. -/
theorem codecEncode_ok {v : Int} {w : Nat} (h : representable v w = true) :
    codecEncode v w = .ok (stringOfBits (BitVec.ofInt w v)) := by
  obtain ⟨hw, hlow, hhigh⟩ := (representable_iff v w).1 h
  have hdouble : (2 : Int) * 2 ^ (w - 1) = 2 ^ w := mul_pow_sub_one hw.ne' 2
  rw [codecEncode, if_neg (by simp [h])]
  split_ifs with hv
  · have hu : ((v + 2 ^ w).toNat : Int) = v + 2 ^ w := Int.toNat_of_nonneg (by omega)
    have hpattern : BitVec.ofNat w (v + 2 ^ w).toNat = BitVec.ofInt w v := by
      rw [← BitVec.ofInt_natCast, hu]
      apply BitVec.eq_of_toNat_eq
      simp [BitVec.toNat_ofInt]
    rw [← hpattern]
    refine congrArg _ (padded_eq_stringOfBits hw ?_ (.inr ?_))
    all_goals zify; omega
  · have hu : (v.toNat : Int) = v := Int.toNat_of_nonneg (by omega)
    rw [← hu, BitVec.ofInt_natCast, Int.toNat_natCast]
    refine congrArg _ (padded_eq_stringOfBits hw ?_ (.inl rfl))
    zify; omega

theorem toInt_ofInt_of_representable {v : Int} {w : Nat} (h : representable v w = true) :
    (BitVec.ofInt w v).toInt = v := by
  obtain ⟨hw, hlow, hhigh⟩ := (representable_iff v w).1 h
  have hdouble : (2 : Int) * 2 ^ (w - 1) = 2 ^ w := mul_pow_sub_one hw.ne' 2
  rw [BitVec.toInt_ofInt, Int.bmod_eq_of_le]
  all_goals push_cast; omega

theorem representable_toInt {w : Nat} (hw : 0 < w) (b : BitVec w) :
    representable b.toInt w = true :=
  (representable_iff _ _).2 ⟨hw, BitVec.le_toInt b, BitVec.toInt_lt⟩

theorem codecEncode_toInt {w : Nat} (hw : 0 < w) (b : BitVec w) :
    codecEncode b.toInt w = .ok (stringOfBits b) := by
  rw [codecEncode_ok (representable_toInt hw b), BitVec.ofInt_toInt]

/-! ### The obligations -/

/-- Settles O24: the magnitude is the sum, and the first character decides the correction. -/
theorem codecDecodeRule : Obligations.CodecDecodeRule := by
  intro s
  refine ⟨fun hne hbinary => ?_, fun hbad => codecDecode_error (hbad.imp_right ?_)⟩
  · rw [codecDecode_ok hne ((all_isBinaryDigit_iff s).2 hbinary), unsignedOf_eq_sum]
  · rintro ⟨c, hc, h0, h1⟩
    rw [← Bool.not_eq_true, all_isBinaryDigit_iff]
    exact fun hall => (hall c hc).elim h0 h1

/-- Settles O25: in range, the string of the pattern of `v`; out of range, the range check. -/
theorem codecEncodeRule : Obligations.CodecEncodeRule := by
  intro v w hw
  refine ⟨fun hin => ?_, fun hout => codecEncode_error ?_⟩
  · refine ⟨_, codecEncode_ok ((representable_iff v w).2 ⟨hw, hin⟩), length_stringOfBits _, ?_⟩
    intro k hk
    rw [getElem?_stringOfBits _ hk, ← BitVec.testBit_toNat, BitVec.toNat_ofInt]
    norm_cast
  · rw [← Bool.not_eq_true, representable_iff]
    omega

/-- Settles O26: a value in range goes through its pattern, a binary string through its own. -/
theorem codecRoundTrips : Obligations.CodecRoundTrips := by
  refine ⟨fun v w hw hlow hhigh => ?_, fun s hne hbinary => ?_⟩
  · have hv : representable v w = true := (representable_iff v w).2 ⟨hw, hlow, hhigh⟩
    refine ⟨_, codecEncode_ok hv, ?_⟩
    rw [codecDecode_stringOfBits hw, toInt_ofInt_of_representable hv]
  · have hlength : 0 < s.length := List.length_pos_iff.2 hne
    have hstring := eq_stringOfBits ((all_isBinaryDigit_iff s).2 hbinary) rfl rfl
    have hdecode := codecDecode_stringOfBits hlength (BitVec.ofNat s.length (unsignedOf s))
    have hencode := codecEncode_toInt hlength (BitVec.ofNat s.length (unsignedOf s))
    rw [← hstring] at hdecode hencode
    exact ⟨_, hdecode, hencode⟩

/-- Settles O27: `encode32` passes the same check, and a pattern is determined by its string. -/
theorem codecBitView : Obligations.CodecBitView := by
  refine ⟨fun w b hw => ⟨codecDecode_stringOfBits hw b, codecEncode_toInt hw b⟩,
    fun b => codecDecode_stringOfBits (by decide) b, fun v => ?_⟩
  cases hv : representable v 32 with
  | true =>
    rw [encode32_ok hv, codecEncode_ok hv]
    simp [(stringOfBits_injective 32).eq_iff]
  | false =>
    rw [encode32_error hv, codecEncode_error hv]
    simp

end Sys2Proof.Machine
end

section
/-! PROOFS. Instruction memory (spec/41_instruction_memory.md): its fetch (R121), its loader (R120)
and that no run changes it (R122). -/

namespace Sys2Proof.Machine

open Sys2Proof.Claims

/-! ### The fetch -/

/-- The word read from four cells is held by them: each cell is its own field of the word. -/
theorem holdsWord_wordAt (m : Memory) (a : Nat) : HoldsWord m a (m.wordAt a) := by
  unfold HoldsWord Memory.wordAt wordOfCells
  simp (disch := decide) only [extract_hi, extract_lo, Nat.reduceSub, BitVec.extractLsb'_eq_self,
    and_self]

/-- Settles O28: the two cases of the bound check. -/
theorem fetchRule : Obligations.FetchRule := fun m pc =>
  ⟨fun hin => ⟨m.wordAt pc.toNat, iFetch_ok hin, holdsWord_wordAt m pc.toNat⟩, iFetch_error⟩

/-! ### Runs -/

/-- No port reaches instruction memory (R211). -/
theorem runPorts_imem {p : PortProgram} {s t : State} (h : runPorts p s = .next t) :
    t.imem = s.imem := by
  refine runPorts_preserves (P := fun u => u.imem = s.imem) ?hreg ?hmem ?hpc ?hnop ?hfield h rfl
  case hreg =>
    intro u v i n hu hwrite
    rw [rfWrite_frame hwrite]
    exact hu
  case hmem =>
    intro u v a n hu hwrite
    obtain ⟨-, -, -, rfl⟩ := memWrite_inv hwrite
    exact hu
  case hpc =>
    intro u v n hu hwrite
    obtain ⟨-, -, rfl⟩ := writeNextPC_inv hwrite
    exact hu
  case hnop => exact fun _ _ hu => hu
  case hfield => exact fun _ _ hu => hu

section Runs

variable {Op : Type} {c : Collaborators Op}

theorem decodeAndExecute_imem {flag : Bool} {w : Word} {s t : State}
    (h : decodeAndExecute c flag w s = .next t) : t.imem = s.imem := by
  rcases decodeAndExecute_next h with ⟨-, rfl⟩ | ⟨op, -, hrun⟩
  · rfl
  · exact runPorts_imem hrun

theorem blockStep_imem {flag : Bool} {s t : State} (h : blockStep c flag s = .next t) :
    t.imem = s.imem := by
  obtain ⟨-, w, u, -, hact, rfl⟩ := cycleWith_next h
  rw [closeCycle_imem, decodeAndExecute_imem hact, openCycle_imem]

/-- A fault leaves the state the step started from but for the mark (R217), a refusal all of it. -/
theorem settle_blockStep_imem (flag : Bool) (s : State) :
    (settle s (blockStep c flag s)).imem = s.imem := by
  cases h : blockStep c flag s with
  | next t => exact blockStep_imem h
  | fault f => rfl
  | refused r => rfl

end Runs

/-- Settles O31, by induction on the number of cycles. -/
theorem instructionMemoryImmutable : Obligations.InstructionMemoryImmutable := by
  intro Op c draws k n s
  induction n generalizing k s with
  | zero => rfl
  | succ n ih =>
    rw [blockRun]
    split_ifs
    · rw [ih, settle_blockStep_imem]
    · rfl

/-! ### The loader -/

theorem validLine_iff (line : List Char) : validLine line = true ↔ ValidLine line := by
  rw [validLine, Bool.and_eq_true, beq_iff_eq, all_isBinaryDigit_iff, ValidLine]

theorem firstBadLine_cons_zero {line : List Char} {rest : List (List Char)} :
    FirstBadLine (line :: rest) 0 ↔ ¬ ValidLine line := by
  simp [FirstBadLine]

theorem firstBadLine_cons_succ {line : List Char} {rest : List (List Char)} {k : Nat} :
    FirstBadLine (line :: rest) (k + 1) ↔ ValidLine line ∧ FirstBadLine rest k := by
  simp only [FirstBadLine, Nat.forall_lt_succ_left', List.getElem?_cons_zero,
    List.getElem?_cons_succ, Option.some.injEq, forall_eq']
  exact and_left_comm

/-- The reading stops at the first line that is not valid and names it; `start` is the number of the
lines' first. -/
theorem cellsOfLines_firstBadLine (which : ImageKind) (start : Nat) {lines : List (List Char)}
    {k : Nat} (h : FirstBadLine lines k) :
    cellsOfLines which start lines = .error (.malformedLine which (start + k)) := by
  induction lines generalizing start k with
  | nil => simp [FirstBadLine] at h
  | cons line rest ih =>
    cases k with
    | zero =>
      have hbad : ¬ ValidLine line := firstBadLine_cons_zero.1 h
      rw [cellsOfLines, if_neg (mt (validLine_iff line).1 hbad), Nat.add_zero]
    | succ k =>
      obtain ⟨hline, hrest⟩ := firstBadLine_cons_succ.1 h
      simp only [cellsOfLines, if_pos ((validLine_iff line).2 hline), ih (start + 1) hrest,
        Nat.succ_add_eq_add_succ]

theorem readImage_firstBadLine (which : ImageKind) {text : ImageText} {k : Nat}
    (h : FirstBadLine (imageLines text) k) :
    readImage which (some text) = .error (.malformedLine which k) := by
  rw [readImage, cellsOfLines_firstBadLine which 0 h, Nat.zero_add]

theorem readImage_validLines (which : ImageKind) {text : ImageText}
    (h : ∀ l ∈ imageLines text, validLine l = true) :
    readImage which (some text) = .ok ((imageLines text).map cellOfLine) :=
  (cellsOfLines_ok_iff which 0 (imageLines text) _).2 ⟨h, rfl⟩

/-- Settles O37: the image is read line by line, and its cells are the memory. -/
theorem instructionImageLoad : Obligations.InstructionImageLoad := by
  refine ⟨rfl, fun text => ⟨fun hlines => ?valid, fun k hbad => ?malformed⟩⟩
  case valid =>
    have hvalid : ∀ l ∈ imageLines text, validLine l = true := fun l hl =>
      (validLine_iff l).2 (hlines l hl)
    have hload : imemLoad (some text) = .ok (Memory.ofBytes (imageLines text).length
        ((imageLines text).map cellOfLine)) := by
      simp only [imemLoad, readImage_validLines .instruction hvalid, List.length_map]
    exact ⟨_, hload, ofBytes_wf (List.length_map _).le, rfl, cellsOfLines_ofBytes _ hvalid⟩
  case malformed =>
    simp only [imemLoad, readImage_firstBadLine .instruction hbad]

end Sys2Proof.Machine
end

section
/-! PROOFS. Data memory (spec/42_data_memory.md): its loader (R140), the reads and writes of words
(R141, R142, R144) and its dump (R143). -/

namespace Sys2Proof.Machine

open Sys2Proof.Claims

/-! ### Words -/

theorem wordAt_eq_bigEndianWord (m : Memory) (a : Nat) : m.wordAt a = bigEndianWord m a := rfl

/-- Settles O29: the two cases of the bounds check. -/
theorem readWordRule : Obligations.ReadWordRule := by
  intro s a
  constructor
  · intro h0 hin
    rw [memRead_ok h0 hin, wordAt_eq_bigEndianWord, signed]
  · exact memRead_error

theorem holdsWord_storeWord {m : Memory} (h : m.wf) {a : Nat} (ha : a + 4 ≤ m.size) (w : Word) :
    HoldsWord (m.storeWord a w) a w := by
  have hheld := holdsWord_wordAt (m.storeWord a w) a
  rwa [wordAt_storeWord h ha] at hheld

theorem sameOutside_storeWord {m : Memory} (h : m.wf) {a : Nat} (ha : a + 4 ≤ m.size) (w : Word) :
    SameOutside m (m.storeWord a w) a := by
  refine ⟨fun n hn => ?_, storeWord_size m a w⟩
  rw [byte_storeWord h ha, if_neg (by omega), if_neg (by omega), if_neg (by omega),
    if_neg (by omega)]

/-- The range check comes after the bounds check (R142). -/
theorem memWrite_codecRange {s : State} {a v : Int} (h0 : 0 ≤ a) (h : a + 4 ≤ s.dmem.size)
    (hv : representable v 32 = false) : memWrite s a v = .error (.codecRange v 32) := by
  have hin : ¬ outOfBounds s.dmem a = true := by rw [outOfBounds_iff]; omega
  simp only [memWrite, if_neg hin, encode32_error hv]

/-- Reading the word that a write has stored gives its value back (R144). -/
theorem memRead_storeWord {s : State} (hwf : s.dmem.wf) {a v : Int} (h0 : 0 ≤ a)
    (h : a + 4 ≤ s.dmem.size) (hv : representable v 32 = true) :
    memRead { s with dmem := s.dmem.storeWord a.toNat (BitVec.ofInt 32 v) } a = .ok v := by
  rw [memRead_ok h0 (by simpa using h), wordAt_storeWord hwf (by omega), signed_ofInt hv]

/-- Settles O30: the three answers of a write; a stored word is held by its four cells. -/
theorem writeWordRule : Obligations.WriteWordRule := by
  intro s a v hwf
  refine ⟨memWrite_error, fun h0 hin hrange => ?range, fun h0 hin hlow hhigh => ?stored⟩
  case range =>
    refine memWrite_codecRange h0 hin ?_
    rw [← Bool.not_eq_true, representable_32_iff]
    omega
  case stored =>
    have hv : representable v 32 = true := (representable_32_iff v).2 ⟨hlow, hhigh⟩
    have hwindow : a.toNat + 4 ≤ s.dmem.size := by omega
    exact ⟨_, memWrite_ok h0 hin hv, holdsWord_storeWord hwf hwindow _,
      sameOutside_storeWord hwf hwindow _, rfl, memRead_storeWord hwf h0 hin hv⟩

/-! ### The dump -/

theorem getElem?_bytes (m : Memory) {k : Nat} (hk : k < m.size) : m.bytes[k]? = some (m.byte k) := by
  simp [Memory.bytes, hk]

/-- Settles O32: the dump lists the cells by address. -/
theorem dumpRule : Obligations.DumpRule := fun s =>
  ⟨length_bytes s.dmem, fun _ hk => getElem?_bytes s.dmem hk⟩

/-! ### The loader -/

section Images

variable {capacity : Nat} {text : ImageText}

theorem dmemLoad_validLines (h : ∀ l ∈ imageLines text, validLine l = true)
    (hfit : (imageLines text).length ≤ capacity) :
    dmemLoad capacity (some text) =
      .ok (Memory.ofBytes capacity ((imageLines text).map cellOfLine)) := by
  simp only [dmemLoad, readImage_validLines .data h, List.length_map, if_neg (Nat.not_lt.2 hfit)]

theorem dmemLoad_imageTooLarge (h : ∀ l ∈ imageLines text, validLine l = true)
    (hlarge : capacity < (imageLines text).length) :
    dmemLoad capacity (some text) = .error (.imageTooLarge (imageLines text).length) := by
  simp only [dmemLoad, readImage_validLines .data h, List.length_map, if_pos hlarge]

/-- A malformed line is reported before the size is checked (R140). -/
theorem dmemLoad_firstBadLine {k : Nat} (h : FirstBadLine (imageLines text) k) :
    dmemLoad capacity (some text) = .error (.malformedLine .data k) := by
  simp only [dmemLoad, readImage_firstBadLine .data h]

end Images

/-- Settles O38: the image is read line by line; its cells, if they fit, begin the memory. -/
theorem dataImageLoad : Obligations.DataImageLoad := by
  intro capacity
  refine ⟨rfl, fun text => ?_⟩
  have hvalid (h : ∀ l ∈ imageLines text, ValidLine l) : ∀ l ∈ imageLines text, validLine l = true :=
    fun l hl => (validLine_iff l).2 (h l hl)
  refine ⟨fun hlines hfit => ?fits, fun hlines hlarge => ?tooLarge, fun k hbad => ?malformed⟩
  case fits =>
    have hcells : ((imageLines text).map cellOfLine).length ≤ capacity := by
      rwa [List.length_map]
    refine ⟨_, dmemLoad_validLines (hvalid hlines) hfit, ofBytes_wf hcells, rfl,
      cellsOfLines_ofBytes capacity (hvalid hlines), fun a ha => ?_⟩
    exact byte_ofBytes_of_length_le capacity (by rwa [List.length_map])
  case tooLarge => exact dmemLoad_imageTooLarge (hvalid hlines) hlarge
  case malformed => exact dmemLoad_firstBadLine hbad

end Sys2Proof.Machine
end

section
/-! PROOFS. The register file (spec/43_register_file.md): what a read answers (R160), and the three
answers of a write, in the order of its checks (R161). -/

namespace Sys2Proof.Machine

open Sys2Proof.Claims

/-! ### Reads -/

theorem x_eq_regValue (s : State) (r : RegIx) : x s r = regValue s.rf r.val := by
  by_cases hr : r = 0
  · rw [hr]; rfl
  · rw [x, if_neg hr, regValue_pos s.rf (Fin.val_ne_zero_iff.2 hr) r.isLt]
    rfl

/-- Settles O34: an index of the profile reads as its register, any other faults. -/
theorem registerReadRule : Obligations.RegisterReadRule := by
  intro s
  constructor
  · intro r
    rw [rfRead_reg, x_eq_regValue]
  · exact fun _ => rfRead_error s

/-! ### Writes -/

theorem rfWrite_regIndex (s : State) {i : Int} (v : Int) (h : i < 0 ∨ 31 < i) :
    rfWrite s i v = .error (.regIndex i) := if_pos h

theorem rfWrite_zero (s : State) (v : Int) : rfWrite s 0 v = .ok s := rfl

/-- The range check comes after the index check and the `x0` discard (R161). -/
theorem rfWrite_codecRange (s : State) {r : RegIx} {v : Int} (hr : r ≠ 0)
    (hv : representable v 32 = false) : rfWrite s r.val v = .error (.codecRange v 32) := by
  have hindex : ¬((r.val : Int) < 0 ∨ 31 < (r.val : Int)) := by omega
  have hdiscard : (r.val : Int) ≠ 0 := Int.natCast_ne_zero.2 (Fin.val_ne_zero_iff.2 hr)
  rw [rfWrite, if_neg hindex, if_neg hdiscard, encode32_error hv]

theorem x_setReg (s : State) {r : RegIx} (hr : r ≠ 0) {v : Int} (hv : representable v 32 = true)
    (q : RegIx) : x (setReg s r v) q = if q = r then v else x s q := by
  have hcond : (q ≠ 0 ∧ q = r) ↔ q = r := and_iff_right_of_imp fun h => h ▸ hr
  simp only [x_eq_regValue, setReg_read s r q hv, hcond]

theorem setReg_slot_of_ne (s : State) {q r : RegIx} (v : Int) (h : q ≠ r) :
    (setReg s r v).rf[q] = s.rf[q] := by
  unfold setReg
  split_ifs
  · rfl
  · exact Vector.getElem_set_ne r.isLt q.isLt (Fin.val_ne_of_ne h.symm)

/-- Settles O35: the index check, the discard, the range check, and the register that is set. -/
theorem registerWriteRule : Obligations.RegisterWriteRule := by
  intro s v
  refine ⟨fun _ => rfWrite_regIndex s v, rfWrite_zero s v, fun r hr =>
    ⟨fun hout => ?outOfRange, fun hlow hhigh => ?written⟩⟩
  case outOfRange =>
    refine rfWrite_codecRange s hr ?_
    rw [← Bool.not_eq_true, representable_32_iff]
    omega
  case written =>
    have hv : representable v 32 = true := (representable_32_iff v).2 ⟨hlow, hhigh⟩
    have hwrite : rfWrite s r.val v = .ok (setReg s r v) := rfWrite_reg s r hv
    exact ⟨setReg s r v, hwrite, x_setReg s hr hv, fun _ => setReg_slot_of_ne s v,
      rfWrite_frame hwrite⟩

end Sys2Proof.Machine
end

section
/-! PROOFS. The latches (spec/44_pipeline_latches.md): the fields of a stage other than IF influence
nothing (R186), since the loop reads `cur.IF` alone and so does every program of the test profile
(spec/47_test_profile.md R252); and the five-stage variant is refused by name (R190). -/

namespace Sys2Proof.Machine

open Sys2Proof.Claims

/-! ### States that agree -/

/-- The second state is the first with other traces and other latches, the IF latches the same. -/
theorem agreeOutsideLaterStages_iff {s s' : State} :
    AgreeOutsideLaterStages s s' ↔ ∃ c n r q, c.IF = s.cur.IF ∧ n.IF = s.nxt.IF ∧
      s' = { s with cur := c, nxt := n, rfTrace := r, stTrace := q } := by
  constructor
  · rintro ⟨hcur, hnxt, hrest⟩
    refine ⟨s'.cur, s'.nxt, s'.rfTrace, s'.stTrace, hcur, hnxt, ?_⟩
    rw [← hrest]
  · rintro ⟨c, n, r, q, hcur, hnxt, rfl⟩
    exact ⟨hcur, hnxt, rfl⟩

/-- Two answers of a writing port: the same fault, or states that agree. -/
inductive PortsAgree : Except Fault State → Except Fault State → Prop where
  | ok {t t' : State} (h : AgreeOutsideLaterStages t t') : PortsAgree (.ok t) (.ok t')
  | error (f : Fault) : PortsAgree (.error f) (.error f)

/-- Two outcomes: the same fault or refusal, or next states that agree. -/
inductive OutcomesAgree :
    Host.Outcome State Fault Refusal → Host.Outcome State Fault Refusal → Prop where
  | next {t t' : State} (h : AgreeOutsideLaterStages t t') : OutcomesAgree (.next t) (.next t')
  | fault (f : Fault) : OutcomesAgree (.fault f) (.fault f)
  | refused (r : Refusal) : OutcomesAgree (.refused r) (.refused r)

/-- What agreement says of the second outcome, by the kind of the first. -/
theorem OutcomesAgree.by_kind {o o' : Host.Outcome State Fault Refusal} (h : OutcomesAgree o o') :
    (∀ t, o = .next t → ∃ t', o' = .next t' ∧ AgreeOutsideLaterStages t t') ∧
      (∀ f, o = .fault f → o' = .fault f) ∧ ∀ e, o = .refused e → o' = .refused e := by
  cases h with
  | next h =>
    refine ⟨fun t ht => ?_, nofun, nofun⟩
    cases ht
    exact ⟨_, rfl, h⟩
  | fault f => exact ⟨fun _ ht => (nomatch ht), fun _ hf => hf, nofun⟩
  | refused r => exact ⟨fun _ ht => (nomatch ht), nofun, fun _ hr => hr⟩

/-! ### The ports -/

/-- No field an executor may write through `writeField` is one of the IF latch (R211). -/
@[simp] theorem applyLatchWrite_IF (p : PipelineState) (w : LatchWrite) :
    (applyLatchWrite p w).IF = p.IF := by
  cases w <;> rfl

section Ports

variable {s s' : State} (h : AgreeOutsideLaterStages s s')
include h

theorem portsAgree_rfWrite (i v : Int) : PortsAgree (rfWrite s i v) (rfWrite s' i v) := by
  unfold rfWrite
  split_ifs
  · exact .error _
  · exact .ok h
  · obtain ⟨c, n, r, q, hcur, hnxt, rfl⟩ := agreeOutsideLaterStages_iff.1 h
    cases encode32 v with
    | error f => exact .error f
    | ok b => exact .ok ⟨hcur, hnxt, rfl⟩

theorem portsAgree_memWrite (a v : Int) : PortsAgree (memWrite s a v) (memWrite s' a v) := by
  obtain ⟨c, n, r, q, hcur, hnxt, rfl⟩ := agreeOutsideLaterStages_iff.1 h
  unfold memWrite
  split_ifs
  · exact .error _
  · cases encode32 v with
    | error f => exact .error f
    | ok b => exact .ok ⟨hcur, hnxt, rfl⟩

theorem portsAgree_writeNextPC (v : Int) : PortsAgree (writeNextPC s v) (writeNextPC s' v) := by
  obtain ⟨c, n, r, q, hcur, hnxt, rfl⟩ := agreeOutsideLaterStages_iff.1 h
  unfold writeNextPC
  split_ifs
  · exact .error _
  · exact .ok ⟨hcur, by simp only [hnxt], rfl⟩

theorem agree_writeNextNop (b : Bool) :
    AgreeOutsideLaterStages (writeNextNop s b) (writeNextNop s' b) := by
  obtain ⟨c, n, r, q, hcur, hnxt, rfl⟩ := agreeOutsideLaterStages_iff.1 h
  exact ⟨hcur, by simp only [writeNextNop, hnxt], rfl⟩

theorem agree_writeLatch (w : LatchWrite) :
    AgreeOutsideLaterStages (writeLatch s w) (writeLatch s' w) := by
  obtain ⟨c, n, r, q, hcur, hnxt, rfl⟩ := agreeOutsideLaterStages_iff.1 h
  exact ⟨hcur, by simpa using hnxt, rfl⟩

theorem rfRead_of_agree (i : Int) : rfRead s' i = rfRead s i := by
  obtain ⟨c, n, r, q, -, -, rfl⟩ := agreeOutsideLaterStages_iff.1 h
  rfl

theorem memRead_of_agree (a : Int) : memRead s' a = memRead s a := by
  obtain ⟨c, n, r, q, -, -, rfl⟩ := agreeOutsideLaterStages_iff.1 h
  rfl

end Ports

/-! ### Programs that read only the IF latch -/

/-- What the program does depends on no latch of `cur` but IF. -/
def ReadsOnlyIF : PortProgram → Prop
  | .done => True
  | .fail _ => True
  | .misaligned _ => True
  | .readReg _ rest => ∀ v, ReadsOnlyIF (rest v)
  | .writeReg _ _ rest => ReadsOnlyIF rest
  | .readMem _ rest => ∀ v, ReadsOnlyIF (rest v)
  | .writeMem _ _ rest => ReadsOnlyIF rest
  | .readCur rest => (∀ p p', p'.IF = p.IF → rest p' = rest p) ∧ ∀ p, ReadsOnlyIF (rest p)
  | .writeNop _ rest => ReadsOnlyIF rest
  | .writePC _ rest => ReadsOnlyIF rest
  | .writeField _ rest => ReadsOnlyIF rest

/-- The rest of a program after the answer of a writing port: it runs in the state answered, and a
fault ends it. -/
def runAfter (rest : PortProgram) : Except Fault State → Host.Outcome State Fault Refusal
  | .ok t => runPorts rest t
  | .error f => .fault f

theorem runPorts_writeReg (i v : Int) (rest : PortProgram) (s : State) :
    runPorts (.writeReg i v rest) s = runAfter rest (rfWrite s i v) := rfl

theorem runPorts_writeMem (a v : Int) (rest : PortProgram) (s : State) :
    runPorts (.writeMem a v rest) s = runAfter rest (memWrite s a v) := rfl

theorem runPorts_writePC (v : Int) (rest : PortProgram) (s : State) :
    runPorts (.writePC v rest) s = runAfter rest (writeNextPC s v) := rfl

theorem outcomesAgree_runAfter {rest : PortProgram} {a a' : Except Fault State}
    (h : PortsAgree a a') (hrest : ∀ {t t'}, AgreeOutsideLaterStages t t' →
      OutcomesAgree (runPorts rest t) (runPorts rest t')) :
    OutcomesAgree (runAfter rest a) (runAfter rest a') := by
  cases h with
  | ok h => exact hrest h
  | error f => exact .fault f

/-- Such a program runs alike from states that agree. -/
theorem outcomesAgree_runPorts {p : PortProgram} (hp : ReadsOnlyIF p) {s s' : State}
    (h : AgreeOutsideLaterStages s s') : OutcomesAgree (runPorts p s) (runPorts p s') := by
  induction p generalizing s s' with
  | done => exact .next h
  | fail reason => exact .fault _
  | misaligned target => exact .fault _
  | readReg i rest ih =>
    rw [runPorts, runPorts, rfRead_of_agree h]
    cases rfRead s i with
    | ok v => exact ih v (hp v) h
    | error f => exact .fault f
  | writeReg i v rest ih =>
    rw [runPorts_writeReg, runPorts_writeReg]
    exact outcomesAgree_runAfter (portsAgree_rfWrite h i v) (ih hp)
  | readMem a rest ih =>
    rw [runPorts, runPorts, memRead_of_agree h]
    cases memRead s a with
    | ok v => exact ih v (hp v) h
    | error f => exact .fault f
  | writeMem a v rest ih =>
    rw [runPorts_writeMem, runPorts_writeMem]
    exact outcomesAgree_runAfter (portsAgree_memWrite h a v) (ih hp)
  | readCur rest ih =>
    obtain ⟨hsame, hrest⟩ := hp
    rw [runPorts, runPorts, hsame _ _ h.1]
    exact ih _ (hrest _) h
  | writeNop b rest ih => exact ih hp (agree_writeNextNop h b)
  | writePC v rest ih =>
    rw [runPorts_writePC, runPorts_writePC]
    exact outcomesAgree_runAfter (portsAgree_writeNextPC h v) (ih hp)
  | writeField w rest ih => exact ih hp (agree_writeLatch h w)

theorem readsOnlyIF_withSuccessor {work : Word → PortProgram} (h : ∀ pc, ReadsOnlyIF (work pc)) :
    ReadsOnlyIF (withSuccessor work) :=
  ⟨fun _ _ hIF => by simp only [hIF], fun p => h p.IF.PC⟩

theorem readsOnlyIF_checkTarget (t : Nat) {rest : PortProgram} (h : ReadsOnlyIF rest) :
    ReadsOnlyIF (checkTarget t rest) := by
  unfold checkTarget
  split_ifs
  · exact h
  · trivial

theorem readsOnlyIF_registerForm (f : Int → Int → Int) (rd rs1 rs2 : RegIx) :
    ReadsOnlyIF (registerForm f rd rs1 rs2) :=
  readsOnlyIF_withSuccessor fun _ _ _ => trivial

theorem readsOnlyIF_immediateForm (f : Int → Int → Int) (rd rs1 : RegIx) (imm : Int) :
    ReadsOnlyIF (immediateForm f rd rs1 imm) :=
  readsOnlyIF_withSuccessor fun _ _ => trivial

theorem readsOnlyIF_branchForm (cond : Int → Int → Bool) (rs1 rs2 : RegIx) (imm : Int) :
    ReadsOnlyIF (branchForm cond rs1 rs2 imm) := by
  refine readsOnlyIF_withSuccessor fun pc a b => ?_
  beta_reduce
  split_ifs
  · exact readsOnlyIF_checkTarget _ trivial
  · trivial

theorem readsOnlyIF_loadForm (rd rs1 : RegIx) (imm : Int) : ReadsOnlyIF (loadForm rd rs1 imm) :=
  readsOnlyIF_withSuccessor fun _ _ _ => trivial

theorem readsOnlyIF_storeForm (rs2 rs1 : RegIx) (imm : Int) :
    ReadsOnlyIF (storeForm rs2 rs1 imm) :=
  readsOnlyIF_withSuccessor fun _ _ _ => trivial

theorem readsOnlyIF_jumpForm (rd : RegIx) (imm : Int) : ReadsOnlyIF (jumpForm rd imm) :=
  readsOnlyIF_withSuccessor fun _ => readsOnlyIF_checkTarget _ trivial

/-- The profile's executor reads `cur.IF.PC` and no other latch field (R252). -/
theorem readsOnlyIF_executeP (i : Instr) (flag : Bool) : ReadsOnlyIF (executeP i flag) := by
  cases i with
  | add | sub | xor | or | and => exact readsOnlyIF_registerForm _ _ _ _
  | addi | xori | ori | andi => exact readsOnlyIF_immediateForm _ _ _ _
  | lw => exact readsOnlyIF_loadForm _ _ _
  | sw => exact readsOnlyIF_storeForm _ _ _
  | beq | bne => exact readsOnlyIF_branchForm _ _ _ _
  | jal => exact readsOnlyIF_jumpForm _ _
  | halt => trivial

/-! ### The cycle -/

section Cycle

variable {s s' : State} (h : AgreeOutsideLaterStages s s')
include h

theorem agree_setHalted : AgreeOutsideLaterStages (setHalted s) (setHalted s') := by
  obtain ⟨c, n, r, q, hcur, hnxt, rfl⟩ := agreeOutsideLaterStages_iff.1 h
  exact ⟨hcur, hnxt, rfl⟩

theorem agree_copyLatches : AgreeOutsideLaterStages (copyLatches s) (copyLatches s') := by
  obtain ⟨c, n, r, q, hcur, -, rfl⟩ := agreeOutsideLaterStages_iff.1 h
  exact ⟨hcur, hcur, rfl⟩

theorem agree_openCycle : AgreeOutsideLaterStages (openCycle s) (openCycle s') := by
  have hcopied := agree_copyLatches h
  unfold openCycle ifNopCheck
  rw [hcopied.1]
  split_ifs
  · exact agree_setHalted hcopied
  · exact hcopied

theorem agree_closeCycle : AgreeOutsideLaterStages (closeCycle s) (closeCycle s') := by
  obtain ⟨c, n, r, q, -, hnxt, rfl⟩ := agreeOutsideLaterStages_iff.1 h
  exact ⟨hnxt, hnxt, rfl⟩

omit h in
theorem outcomesAgree_closeOutcome {o o' : Host.Outcome State Fault Refusal}
    (h : OutcomesAgree o o') : OutcomesAgree (closeOutcome o) (closeOutcome o') := by
  cases h with
  | next h => exact .next (agree_closeCycle h)
  | fault f => exact .fault f
  | refused r => exact .refused r

theorem noStepReason_of_agree : noStepReason s' = noStepReason s := by
  obtain ⟨c, n, r, q, -, -, rfl⟩ := agreeOutsideLaterStages_iff.1 h
  rfl

theorem iFetch_of_agree :
    iFetch s'.imem s'.cur.IF.PC.toNat = iFetch s.imem s.cur.IF.PC.toNat := by
  obtain ⟨c, n, r, q, hcur, -, rfl⟩ := agreeOutsideLaterStages_iff.1 h
  simp only [hcur]

theorem outcomesAgree_decodeAndDispatch (flag : Bool) (w : Word) :
    OutcomesAgree (decodeAndDispatch flag w s) (decodeAndDispatch flag w s') := by
  unfold decodeAndDispatch
  cases decode w with
  | error e => exact .next (agree_setHalted h)
  | ok i =>
    by_cases hi : i = .halt
    · rw [hi]
      exact .next (agree_setHalted h)
    · simp only [exec_eq_runPorts hi flag]
      exact outcomesAgree_runPorts (readsOnlyIF_executeP i flag) h

/-- The loop adds no reading of its own but that of `cur.IF`: what its steps 3 and 4 keep, the cycle
keeps. -/
theorem outcomesAgree_cycleWith {act : Word → State → Host.Outcome State Fault Refusal}
    (hact : ∀ w, OutcomesAgree (act w (openCycle s)) (act w (openCycle s'))) :
    OutcomesAgree (cycleWith act s) (cycleWith act s') := by
  unfold cycleWith
  rw [noStepReason_of_agree h, iFetch_of_agree (agree_openCycle h)]
  cases noStepReason s with
  | some r => exact .refused r
  | none =>
    cases iFetch (openCycle s).imem (openCycle s).cur.IF.PC.toNat with
    | error f => exact .fault f
    | ok w => exact outcomesAgree_closeOutcome (hact w)

theorem outcomesAgree_step : OutcomesAgree (step s) (step s') := by
  have hcycle : s'.cycle = s.cycle := by
    obtain ⟨c, n, r, q, -, -, rfl⟩ := agreeOutsideLaterStages_iff.1 h
    rfl
  unfold step
  rw [hcycle]
  exact outcomesAgree_cycleWith h fun w =>
    outcomesAgree_decodeAndDispatch (agree_openCycle h) _ w

end Cycle

/-- Settles O56: the steps of states that agree have outcomes that agree. -/
theorem bubbleFieldsInfluenceNothing : Obligations.BubbleFieldsInfluenceNothing :=
  fun _ _ h => (outcomesAgree_step h).by_kind

/-- Settles O57: the two variants, by the definition of `variantStep`. -/
theorem fiveStageRefused : Obligations.FiveStageRefused := fun _ => ⟨rfl, rfl⟩

end Sys2Proof.Machine
end

section
/-! PROOFS. One cycle of the loop (spec/45_fetch_and_execution_loop.md R201 to R209): when a state
has none, and what it is where the fetch lies in the image, for any decoder and executor and for
the machine's own instructions. -/

namespace Sys2Proof.Machine

open Sys2Proof.Claims

/-! ### The opened state -/

theorem openCycle_eq_opened (s : State) : openCycle s = opened s := by
  unfold openCycle ifNopCheck opened
  rw [copyLatches_cur]
  cases s.cur.IF.nop
  · rw [Bool.or_false]
    rfl
  · rw [Bool.or_true]
    rfl

theorem cycleWith_opened {act : Word → State → Host.Outcome State Fault Refusal} {s : State}
    (hs : HasStep s) (hin : FetchInside s) :
    cycleWith act s = closeOutcome (act (fetchedWord s) (opened s)) := by
  rw [cycleWith_fetched (enabled_of_hasStep hs) (iFetch_of_fetchInside hin), openCycle_eq_opened]

/-! ### Refusals: only of a state without a step -/

theorem not_enabled_iff (s : State) : enabled s = false ↔ s.halted = true ∨ s.fault ≠ none := by
  rw [← Bool.not_eq_true, enabled_iff, not_and_or, Bool.not_eq_false]

theorem closeOutcome_ne_refused {o : Host.Outcome State Fault Refusal} {r : Refusal}
    (h : o ≠ .refused r) : closeOutcome o ≠ .refused r := by
  cases o with
  | next t => exact nofun
  | fault f => exact nofun
  | refused q => exact h

section Blocks

variable {Op : Type} {c : Collaborators Op} {flag : Bool} {s : State}

theorem decodeAndExecute_none {w : Word} (h : c.decode w = none) :
    decodeAndExecute c flag w s = .next (setHalted s) := by
  simp only [decodeAndExecute, h]

theorem decodeAndExecute_some {w : Word} {op : Op} (h : c.decode w = some op) :
    decodeAndExecute c flag w s = runPorts (c.execute op flag) s := by
  simp only [decodeAndExecute, h]

theorem decodeAndExecute_ne_refused (w : Word) (r : Refusal) :
    decodeAndExecute c flag w s ≠ .refused r := by
  cases hd : c.decode w with
  | none =>
    rw [decodeAndExecute_none hd]
    exact nofun
  | some op =>
    rw [decodeAndExecute_some hd]
    exact runPorts_not_refused _ _ _

theorem blockStep_of_not_enabled (h : enabled s = false) : ∃ r, blockStep c flag s = .refused r := by
  obtain ⟨r, -, hr⟩ := cycleWith_not_enabled (act := decodeAndExecute c flag) h
  exact ⟨r, hr⟩

theorem blockStep_ne_refused (h : enabled s = true) (r : Refusal) :
    blockStep c flag s ≠ .refused r := by
  unfold blockStep
  cases hf : iFetch s.imem s.cur.IF.PC.toNat with
  | error f =>
    rw [cycleWith_fetch_fault h hf]
    exact nofun
  | ok w =>
    rw [cycleWith_fetched h hf]
    exact closeOutcome_ne_refused (decodeAndExecute_ne_refused w r)

/-- R201. -/
theorem blockStep_refused_iff : (∃ r, blockStep c flag s = .refused r) ↔ enabled s = false := by
  constructor
  · rintro ⟨r, hr⟩
    rw [← Bool.not_eq_true]
    exact fun he => blockStep_ne_refused he r hr
  · exact blockStep_of_not_enabled

/-- The cycle of any block where the fetch lies in the image: open, decode and execute, close. -/
theorem blockStep_opened (hs : HasStep s) (hin : FetchInside s) :
    blockStep c flag s = closeOutcome (decodeAndExecute c flag (fetchedWord s) (opened s)) :=
  cycleWith_opened hs hin

end Blocks

/-- Settles O40: a state is refused exactly where it is not enabled. -/
theorem stepEnabledExactly : Obligations.StepEnabledExactly := fun _ _ _ s =>
  blockStep_refused_iff.trans (not_enabled_iff s)

/-- Settles O41: the fetch outside the image, and inside it the two answers of the decoder. -/
theorem cycleRule : Obligations.CycleRule := by
  intro Op c flag s hs
  refine ⟨fun hout => ?outside, fun hin hnone => ?halt, fun hin op hop => ⟨fun u hu => ?next,
    fun f hf => ?fault⟩⟩
  case outside => exact cycleWith_fetch_fault (enabled_of_hasStep hs) (iFetch_error (not_le.1 hout))
  case halt =>
    rw [blockStep_opened hs hin, decodeAndExecute_none hnone, closeOutcome_next,
      closeCycle_eq_closed]
    rfl
  case next =>
    rw [blockStep_opened hs hin, decodeAndExecute_some hop, hu, closeOutcome_next,
      closeCycle_eq_closed]
  case fault => rw [blockStep_opened hs hin, decodeAndExecute_some hop, hf, closeOutcome_fault]

/-! ### The machine's own instructions -/

theorem exec_not_refused (i : Instr) (s : State) (r : Refusal) : exec i s ≠ .refused r := by
  by_cases hi : i = .halt
  · rw [hi]
    exact nofun
  · rw [exec_eq_runPorts hi false]
    exact runPorts_not_refused _ _ _

theorem step_of_decode_ok {s : State} {i : Instr} (hs : HasStep s) (hin : FetchInside s)
    (hi : decode (fetchedWord s) = .ok i) : step s = closeOutcome (exec i (opened s)) := by
  rw [step, cycleWith_opened hs hin]
  simp only [decodeAndDispatch, hi]

/-- Settles O54: the closing of what `exec` answers, by the kind of the answer. -/
theorem stepRunsTheDecodedInstruction : Obligations.StepRunsTheDecodedInstruction := by
  intro s i hs hin hi
  rw [step_of_decode_ok hs hin hi]
  refine ⟨fun u hu => ?next, fun f hf => ?fault, exec_not_refused i _⟩
  case next => rw [hu, closeOutcome_next, closeCycle_eq_closed]
  case fault => rw [hf, closeOutcome_fault]

end Sys2Proof.Machine
end

section
/-! PROOFS. What the ports of an executor reach (spec/45_fetch_and_execution_loop.md R211): they
change registers, data memory and `nxt` only, and a program runs alike whatever the rest of the
state is. -/

namespace Sys2Proof.Machine

open Sys2Proof.Claims

/-! ### The frame -/

/-- `s` with the registers, the data memory and the next latches of `t`. -/
def withPorts (s t : State) : State := { s with rf := t.rf, dmem := t.dmem, nxt := t.nxt }

/-- What port calls from `s` may lead to (R211). -/
structure ReachedByPorts (s t : State) : Prop where
  frame : t = withPorts s t
  capacity : t.dmem.size = s.dmem.size
  slot : t.rf[0] = s.rf[0]

theorem ReachedByPorts.refl (s : State) : ReachedByPorts s s := ⟨rfl, rfl, rfl⟩

theorem ReachedByPorts.trans {s t u : State} (hst : ReachedByPorts s t) (htu : ReachedByPorts t u) :
    ReachedByPorts s u where
  frame := htu.frame.trans (congrArg (withPorts · u) hst.frame :)
  capacity := htu.capacity.trans hst.capacity
  slot := htu.slot.trans hst.slot

theorem ReachedByPorts.cur {s t : State} (h : ReachedByPorts s t) : t.cur = s.cur :=
  (congrArg State.cur h.frame :)

theorem ReachedByPorts.halted {s t : State} (h : ReachedByPorts s t) : t.halted = s.halted :=
  (congrArg State.halted h.frame :)

theorem ReachedByPorts.cycle {s t : State} (h : ReachedByPorts s t) : t.cycle = s.cycle :=
  (congrArg State.cycle h.frame :)

theorem reachedByPorts_rfWrite {s t : State} {i v : Int} (h : rfWrite s i v = .ok t) :
    ReachedByPorts s t := by
  have hframe := rfWrite_frame h
  refine ⟨?_, congrArg (·.dmem.size) hframe, rfWrite_slot h⟩
  rw [hframe]
  rfl

theorem reachedByPorts_memWrite {s t : State} {a v : Int} (h : memWrite s a v = .ok t) :
    ReachedByPorts s t := by
  obtain ⟨-, -, -, rfl⟩ := memWrite_inv h
  exact ⟨rfl, storeWord_size _ _ _, rfl⟩

theorem reachedByPorts_writeNextPC {s t : State} {v : Int} (h : writeNextPC s v = .ok t) :
    ReachedByPorts s t := by
  obtain ⟨-, -, rfl⟩ := writeNextPC_inv h
  exact ⟨rfl, rfl, rfl⟩

theorem reachedByPorts_runPorts {p : PortProgram} {s t : State} (h : runPorts p s = .next t) :
    ReachedByPorts s t := by
  refine runPorts_preserves (P := ReachedByPorts s) ?hreg ?hmem ?hpc ?hnop ?hfield h (.refl s)
  case hreg => exact fun _ _ _ _ hu hwrite => hu.trans (reachedByPorts_rfWrite hwrite)
  case hmem => exact fun _ _ _ _ hu hwrite => hu.trans (reachedByPorts_memWrite hwrite)
  case hpc => exact fun _ _ _ hu hwrite => hu.trans (reachedByPorts_writeNextPC hwrite)
  case hnop => exact fun _ _ hu => hu.trans ⟨rfl, rfl, rfl⟩
  case hfield => exact fun _ _ hu => hu.trans ⟨rfl, rfl, rfl⟩

/-! ### The dependence -/

/-- `t` with everything that no port reads or writes taken from `r`. -/
def withUnreached (r t : State) : State :=
  { r with rf := t.rf, dmem := t.dmem, cur := t.cur, nxt := t.nxt }

/-- An outcome with its next state, if it has one, changed by `g`. -/
def mapNext (g : State → State) :
    Host.Outcome State Fault Refusal → Host.Outcome State Fault Refusal
  | .next t => .next (g t)
  | .fault f => .fault f
  | .refused e => .refused e

theorem rfWrite_withUnreached (r s : State) (i v : Int) :
    rfWrite (withUnreached r s) i v = (rfWrite s i v).map (withUnreached r) := by
  unfold rfWrite
  split_ifs
  · rfl
  · rfl
  · cases encode32 v <;> rfl

theorem memWrite_withUnreached (r s : State) (a v : Int) :
    memWrite (withUnreached r s) a v = (memWrite s a v).map (withUnreached r) := by
  unfold memWrite
  rw [show (withUnreached r s).dmem = s.dmem from rfl]
  split_ifs
  · rfl
  · cases encode32 v <;> rfl

theorem writeNextPC_withUnreached (r s : State) (v : Int) :
    writeNextPC (withUnreached r s) v = (writeNextPC s v).map (withUnreached r) := by
  unfold writeNextPC
  split_ifs <;> rfl

theorem runAfter_map {g : State → State} {rest : PortProgram}
    (hrest : ∀ t, runPorts rest (g t) = mapNext g (runPorts rest t)) (a : Except Fault State) :
    runAfter rest (a.map g) = mapNext g (runAfter rest a) := by
  cases a with
  | ok t => exact hrest t
  | error f => rfl

/-- A program does not see what no port reaches. -/
theorem runPorts_withUnreached (p : PortProgram) (r s : State) :
    runPorts p (withUnreached r s) = mapNext (withUnreached r) (runPorts p s) := by
  induction p generalizing s with
  | done => rfl
  | fail reason => rfl
  | misaligned target => rfl
  | readReg i rest ih =>
    rw [runPorts, runPorts, show rfRead (withUnreached r s) i = rfRead s i from rfl]
    cases rfRead s i with
    | ok v => exact ih v s
    | error f => rfl
  | writeReg i v rest ih =>
    rw [runPorts_writeReg, runPorts_writeReg, rfWrite_withUnreached]
    exact runAfter_map ih _
  | readMem a rest ih =>
    rw [runPorts, runPorts, show memRead (withUnreached r s) a = memRead s a from rfl]
    cases memRead s a with
    | ok v => exact ih v s
    | error f => rfl
  | writeMem a v rest ih =>
    rw [runPorts_writeMem, runPorts_writeMem, memWrite_withUnreached]
    exact runAfter_map ih _
  | readCur rest ih => exact ih s.cur s
  | writeNop b rest ih => exact ih (writeNextNop s b)
  | writePC v rest ih =>
    rw [runPorts_writePC, runPorts_writePC, writeNextPC_withUnreached]
    exact runAfter_map ih _
  | writeField w rest ih => exact ih (writeLatch s w)

theorem withUnreached_eq_self {r s : State} (hrf : r.rf = s.rf) (hdmem : r.dmem = s.dmem)
    (hcur : r.cur = s.cur) (hnxt : r.nxt = s.nxt) : withUnreached r s = r := by
  rw [withUnreached, ← hrf, ← hdmem, ← hcur, ← hnxt]

theorem withUnreached_eq_withPorts {r t : State} (hcur : r.cur = t.cur) :
    withUnreached r t = withPorts r t := by
  rw [withUnreached, ← hcur, withPorts]

/-- Settles O45: the frame of the ports, and the run from the state with the rest replaced. -/
theorem executorReachesOnlyItsPorts : Obligations.ExecutorReachesOnlyItsPorts := by
  intro p s
  refine ⟨fun t ht => ?_, fun s' hrf hdmem hcur hnxt => ?_⟩
  · obtain ⟨hframe, hcapacity, hslot⟩ := reachedByPorts_runPorts ht
    exact ⟨hframe, hcapacity, hslot⟩
  · have hrun := runPorts_withUnreached p s' s
    rw [withUnreached_eq_self hrf hdmem hcur hnxt] at hrun
    refine ⟨fun f hf => ?_, fun t ht => ?_⟩
    · rw [hrun, hf, mapNext]
    · have hsame : s'.cur = t.cur := hcur.trans (reachedByPorts_runPorts ht).cur.symm
      rw [hrun, ht, mapNext, withUnreached_eq_withPorts hsame, withPorts]

end Sys2Proof.Machine
end

section
/-! PROOFS. Counting, halting and stopping (spec/45_fetch_and_execution_loop.md R213 to R217): what
a completed cycle adds, and that a run stays in a state without a step. -/

namespace Sys2Proof.Machine

open Sys2Proof.Claims

section Runs

variable {Op : Type} {c : Collaborators Op} {flag : Bool} {s t : State}

/-! ### A completed cycle -/

theorem decodeAndExecute_cycle {w : Word} (h : decodeAndExecute c flag w s = .next t) :
    t.cycle = s.cycle := by
  rcases decodeAndExecute_next h with ⟨-, rfl⟩ | ⟨op, -, hrun⟩
  · exact setHalted_cycle s
  · exact (reachedByPorts_runPorts hrun).cycle

/-- Steps 3 and 4 halt on a word that decodes to none, and change `halted` on no other (R205). -/
theorem decodeAndExecute_halted_iff {w : Word} (h : decodeAndExecute c flag w s = .next t) :
    t.halted = true ↔ s.halted = true ∨ c.decode w = none := by
  rcases decodeAndExecute_next h with ⟨hnone, rfl⟩ | ⟨op, hop, hrun⟩
  · simp only [setHalted_halted, hnone, or_true]
  · simp only [(reachedByPorts_runPorts hrun).halted, hop, reduceCtorEq, or_false]

/-- A completed cycle closes a state that still has the cycle number the step started with. -/
theorem blockStep_next (h : blockStep c flag s = .next t) : HasStep s ∧ ∃ u,
    decodeAndExecute c flag (fetchedWord s) (openCycle s) = .next u ∧
      u.cycle = s.cycle ∧ t = closeCycle u := by
  obtain ⟨he, w, u, hfetch, hact, ht⟩ := cycleWith_next h
  obtain ⟨-, rfl⟩ := iFetch_inv hfetch
  exact ⟨(enabled_iff s).1 he, u, hact, (decodeAndExecute_cycle hact).trans (openCycle_cycle s), ht⟩

theorem blockStep_cycle (h : blockStep c flag s = .next t) : t.cycle = s.cycle + 1 := by
  obtain ⟨-, u, -, hcycle, rfl⟩ := blockStep_next h
  rw [closeCycle_cycle, hcycle]

theorem blockStep_halted_iff (h : blockStep c flag s = .next t) :
    t.halted = true ↔ s.cur.IF.nop = true ∨ c.decode (fetchedWord s) = none := by
  obtain ⟨⟨hhalted, -⟩, u, hact, -, rfl⟩ := blockStep_next h
  rw [closeCycle_halted, decodeAndExecute_halted_iff hact, openCycle_halted, hhalted,
    Bool.false_or]

/-- The last record of each trace is the one of the completed cycle. -/
theorem blockStep_traces (h : blockStep c flag s = .next t) :
    t.rfTrace.getLast?.map RfRecord.cycle = some s.cycle ∧
      t.stTrace.getLast?.map StRecord.cycle = some s.cycle := by
  obtain ⟨-, u, -, hcycle, rfl⟩ := blockStep_next h
  simp only [closeCycle_rfTrace, closeCycle_stTrace, rfTraceDump_rfTrace, stTraceDump_stTrace,
    getLast?_dumped, Option.map_some, hcycle, and_self]

/-! ### Runs -/

variable {draws : Nat → Bool} {k : Nat}

theorem blockRun_of_not_enabled (h : enabled s = false) (n : Nat) : blockRun c draws k n s = s := by
  cases n with
  | zero => rfl
  | succ n => rw [blockRun, h, if_neg Bool.false_ne_true]

theorem blockRun_of_enabled (h : enabled s = true) (n : Nat) :
    blockRun c draws k (n + 1) s =
      blockRun c draws (k + 1) n (settle s (blockStep c (draws k) s)) := by
  rw [blockRun, if_pos h]

theorem not_enabled_of_halted (h : s.halted = true) : enabled s = false :=
  (not_enabled_iff s).2 (.inl h)

theorem not_enabled_raiseFault (s : State) (f : Fault) : enabled (raiseFault s f) = false :=
  (not_enabled_iff _).2 (.inr (Option.some_ne_none f))

theorem enabled_of_blockStep_fault {f : Fault} (h : blockStep c flag s = .fault f) :
    enabled s = true := by
  rw [← Bool.not_eq_false]
  intro he
  obtain ⟨r, hr⟩ := blockStep_of_not_enabled (c := c) (flag := flag) he
  rw [h] at hr
  cases hr

theorem cycle_le_settle (flag : Bool) (s : State) :
    s.cycle ≤ (settle s (blockStep c flag s)).cycle := by
  cases h : blockStep c flag s with
  | next t => exact Nat.le.intro (blockStep_cycle h).symm
  | fault f => exact le_rfl
  | refused r => exact le_rfl

theorem cycle_le_blockRun (n : Nat) : s.cycle ≤ (blockRun c draws k n s).cycle := by
  induction n generalizing k s with
  | zero => exact le_rfl
  | succ n ih =>
    cases he : enabled s with
    | false => rw [blockRun_of_not_enabled he]
    | true =>
      rw [blockRun_of_enabled he]
      exact (cycle_le_settle _ s).trans ih

/-- A run that is in a halted state after `m` cycles is in the same state ever after (R215). -/
theorem blockRun_of_halted {m n : Nat} (hmn : m ≤ n) (h : (blockRun c draws k m s).halted = true) :
    blockRun c draws k n s = blockRun c draws k m s := by
  induction m generalizing k n s with
  | zero => exact blockRun_of_not_enabled (not_enabled_of_halted h) n
  | succ m ih =>
    obtain ⟨n, rfl⟩ := Nat.exists_eq_add_of_le' (Nat.zero_lt_of_lt hmn)
    cases he : enabled s with
    | false => rw [blockRun_of_not_enabled he, blockRun_of_not_enabled he]
    | true =>
      rw [blockRun_of_enabled he] at h ⊢
      rw [blockRun_of_enabled he]
      exact ih (Nat.le_of_succ_le_succ hmn) h

end Runs

/-- Settles O42: the counter by induction on the run, `halted` because a halted run stays. -/
theorem countersMonotone : Obligations.CountersMonotone := by
  refine fun Op c => ⟨fun flag s t => blockStep_cycle, fun draws k n s =>
    ⟨cycle_le_blockRun n, fun m hm hhalted => ?_⟩⟩
  rw [blockRun_of_halted hm hhalted]
  exact hhalted

/-- Settles O43: the triggers, the count and the records of the closing, and the run that stays. -/
theorem haltTriggersExactly : Obligations.HaltTriggersExactly := by
  intro Op c flag s t h
  obtain ⟨hrf, hst⟩ := blockStep_traces h
  exact ⟨blockStep_halted_iff h, blockStep_cycle h, hrf, hst, fun hhalted draws k n =>
    blockRun_of_not_enabled (not_enabled_of_halted hhalted) n⟩

/-- Settles O44: the marked state is not enabled, so the run stays there and no step follows. -/
theorem faultLeavesPreStepState : Obligations.FaultLeavesPreStepState := by
  intro Op c draws k n s f h
  have hstops := not_enabled_raiseFault s f
  refine ⟨?_, fun flag => blockStep_of_not_enabled hstops⟩
  rw [blockRun_of_enabled (enabled_of_blockStep_fault h), h, settle]
  exact blockRun_of_not_enabled hstops n

end Sys2Proof.Machine
end

section
/-! PROOFS. The outputs at the end of a run (spec/45_fetch_and_execution_loop.md R216;
spec/46_trace_and_metrics.md R234, R235). -/

namespace Sys2Proof.Machine

open Sys2Proof.Claims

theorem ended_iff (s : State) : ended s = true ↔ s.halted = true ∧ s.fault = none := by
  rw [ended, Bool.and_eq_true, Option.isNone_iff_eq_none]

theorem not_ended_iff (s : State) : ended s = false ↔ s.halted = false ∨ s.fault ≠ none := by
  rw [← Bool.not_eq_true, ended_iff, not_and_or, Bool.not_eq_true]

/-- Settles O60: both outputs are guarded by the end of the run. -/
theorem outputsOnlyAtTheEnd : Obligations.OutputsOnlyAtTheEnd := by
  intro s
  refine ⟨fun hend => ?_, fun hnot => ?_⟩
  · have hended := (ended_iff s).2 hend
    exact ⟨if_pos hended, if_pos hended⟩
  · have hrunning := Bool.eq_false_iff.1 ((not_ended_iff s).2 hnot)
    exact ⟨if_neg hrunning, if_neg hrunning⟩

end Sys2Proof.Machine
end

section
/-! PROOFS. The traces feed back into nothing (spec/46_trace_and_metrics.md R241): replacing them
before a step changes no more than the traces after it. -/

namespace Sys2Proof.Machine

open Sys2Proof.Claims

/-- An outcome with the traces of its next state, if it has one, replaced. -/
def replaceTraces (r : List RfRecord) (q : List StRecord) :
    Host.Outcome State Fault Refusal → Host.Outcome State Fault Refusal :=
  mapNext fun t => withTraces t r q

/-! ### Each part of the cycle -/

theorem openCycle_withTraces (s : State) (r : List RfRecord) (q : List StRecord) :
    openCycle (withTraces s r q) = withTraces (openCycle s) r q := by
  rw [openCycle_eq_opened, openCycle_eq_opened]
  rfl

/-- No port reads or writes a trace (R211). -/
theorem runPorts_withTraces (p : PortProgram) (s : State) (r : List RfRecord)
    (q : List StRecord) :
    runPorts p (withTraces s r q) = replaceTraces r q (runPorts p s) := by
  have hrun : runPorts p (withTraces s r q) =
      mapNext (withUnreached (withTraces s r q)) (runPorts p s) :=
    runPorts_withUnreached p (withTraces s r q) s
  rw [hrun]
  cases hs : runPorts p s with
  | fault f => rfl
  | refused e => rfl
  | next t =>
    have hreached := reachedByPorts_runPorts hs
    refine congrArg Host.Outcome.next ?_
    calc withUnreached (withTraces s r q) t
      _ = withPorts (withTraces s r q) t := withUnreached_eq_withPorts hreached.cur.symm
      _ = withTraces (withPorts s t) r q := rfl
      _ = withTraces t r q := by rw [← hreached.frame]

theorem decodeAndExecute_withTraces {Op : Type} (c : Collaborators Op) (flag : Bool) (w : Word)
    (s : State) (r : List RfRecord) (q : List StRecord) :
    decodeAndExecute c flag w (withTraces s r q) =
      replaceTraces r q (decodeAndExecute c flag w s) := by
  cases hd : c.decode w with
  | none =>
    rw [decodeAndExecute_none hd, decodeAndExecute_none hd]
    rfl
  | some op =>
    rw [decodeAndExecute_some hd, decodeAndExecute_some hd]
    exact runPorts_withTraces _ s r q

/-- The closing writes the traces, and reads them only to extend them. -/
theorem closeOutcome_replaceTraces (r : List RfRecord) (q : List StRecord)
    (o : Host.Outcome State Fault Refusal) :
    ∃ r' q', closeOutcome (replaceTraces r q o) = replaceTraces r' q' (closeOutcome o) := by
  cases o with
  | next t =>
    exact ⟨(closeCycle (withTraces t r q)).rfTrace, (closeCycle (withTraces t r q)).stTrace, rfl⟩
  | fault f => exact ⟨r, q, rfl⟩
  | refused e => exact ⟨r, q, rfl⟩

/-! ### The cycle -/

theorem cycleWith_withTraces {act : Word → State → Host.Outcome State Fault Refusal} {s : State}
    {r : List RfRecord} {q : List StRecord}
    (hact : ∀ w u, act w (withTraces u r q) = replaceTraces r q (act w u)) :
    ∃ r' q', cycleWith act (withTraces s r q) = replaceTraces r' q' (cycleWith act s) := by
  cases he : enabled s with
  | false =>
    obtain ⟨e, hreason, hs⟩ := cycleWith_not_enabled (act := act) he
    obtain ⟨e', hreason', hs'⟩ := cycleWith_not_enabled (act := act) (s := withTraces s r q) he
    have hsame : e' = e := Option.some.inj (hreason'.symm.trans hreason)
    refine ⟨r, q, ?_⟩
    rw [hs, hs', hsame]
    rfl
  | true =>
    cases hf : iFetch s.imem s.cur.IF.PC.toNat with
    | error f =>
      refine ⟨r, q, ?_⟩
      rw [cycleWith_fetch_fault he hf, cycleWith_fetch_fault (s := withTraces s r q) he hf]
      rfl
    | ok w =>
      rw [cycleWith_fetched he hf, cycleWith_fetched (s := withTraces s r q) he hf,
        openCycle_withTraces, hact]
      exact closeOutcome_replaceTraces r q _

/-- Settles O48: the outcome is the same but for the traces of its next state. -/
theorem outputsDoNotFeedBack : Obligations.OutputsDoNotFeedBack := by
  intro Op c flag s r q
  obtain ⟨r', q', hstep⟩ : ∃ r' q', blockStep c flag (withTraces s r q) =
      replaceTraces r' q' (blockStep c flag s) :=
    cycleWith_withTraces fun w u => decodeAndExecute_withTraces c flag w u r q
  rw [hstep]
  refine ⟨fun t ht => ⟨r', q', ?next⟩, fun f hf => ?fault, fun e he => ?refused⟩
  case next => rw [ht, replaceTraces, mapNext]
  case fault => rw [hf, replaceTraces, mapNext]
  case refused => rw [he, replaceTraces, mapNext]

end Sys2Proof.Machine
end

section
/-! PROOFS. The records of a run (spec/46_trace_and_metrics.md R231 to R233): each trace lists the
states the run has passed through, one record per completed cycle. -/

namespace Sys2Proof.Machine

/-! ### What one cycle adds -/

section Cycle

variable {Op : Type} {c : Collaborators Op} {flag : Bool} {s t : State}

theorem ReachedByPorts.traces (h : ReachedByPorts s t) :
    t.rfTrace = s.rfTrace ∧ t.stTrace = s.stTrace :=
  ⟨(congrArg State.rfTrace h.frame :), (congrArg State.stTrace h.frame :)⟩

theorem decodeAndExecute_traces {w : Word} (h : decodeAndExecute c flag w s = .next t) :
    t.rfTrace = s.rfTrace ∧ t.stTrace = s.stTrace := by
  rcases decodeAndExecute_next h with ⟨-, rfl⟩ | ⟨op, -, hrun⟩
  · exact ⟨setHalted_rfTrace s, setHalted_stTrace s⟩
  · exact (reachedByPorts_runPorts hrun).traces

/-- A completed cycle dumps the registers and the latches it leaves. -/
theorem blockStep_dumps (h : blockStep c flag s = .next t) :
    (t.rfTrace = if s.cycle = 0 then [{ cycle := s.cycle, regs := regSnapshot t.rf }]
      else s.rfTrace ++ [{ cycle := s.cycle, regs := regSnapshot t.rf }]) ∧
    t.stTrace = if s.cycle = 0 then [{ cycle := s.cycle, latches := t.cur }]
      else s.stTrace ++ [{ cycle := s.cycle, latches := t.cur }] := by
  obtain ⟨-, u, hact, hcycle, rfl⟩ := blockStep_next h
  obtain ⟨hrf, hst⟩ := decodeAndExecute_traces hact
  rw [openCycle_rfTrace] at hrf
  rw [openCycle_stTrace] at hst
  rw [← hcycle, ← hrf, ← hst]
  exact ⟨rfl, rfl⟩

end Cycle

/-! ### What a run has recorded -/

/-- Record `k` of the register trace, `run k` being the state after `k` cycles. -/
def rfRecordOf (run : Nat → State) (k : Nat) : RfRecord :=
  { cycle := k, regs := regSnapshot (run (k + 1)).rf }

/-- Record `k` of the pipeline-state trace. -/
def stRecordOf (run : Nat → State) (k : Nat) : StRecord :=
  { cycle := k, latches := (run (k + 1)).cur }

/-- The traces of `s` are the records of the run's first `s.cycle` cycles. -/
structure Records (run : Nat → State) (s : State) : Prop where
  rf : s.rfTrace = (List.range s.cycle).map (rfRecordOf run)
  st : s.stTrace = (List.range s.cycle).map (stRecordOf run)

/-- A dump is fresh at cycle 0, where there is no record to keep, so it always extends. -/
theorem dumped_eq_map_range {α : Type} (record : Nat → α) (c : Nat) :
    (if c = 0 then [record c] else (List.range c).map record ++ [record c]) =
      (List.range (c + 1)).map record := by
  rw [List.range_succ, List.map_append, List.map_singleton]
  split_ifs with hc
  · rw [hc, List.range_zero, List.map_nil, List.nil_append]
  · rfl

theorem records_blockStep {Op : Type} {c : Collaborators Op} {flag : Bool} {s t : State}
    {run : Nat → State} (h : blockStep c flag s = .next t) (hs : Records run s)
    (hrun : run (s.cycle + 1) = t) : Records run t := by
  obtain ⟨hrf, hst⟩ := blockStep_dumps h
  constructor
  · rw [hrf, hs.rf, blockStep_cycle h, ← dumped_eq_map_range, rfRecordOf, hrun]
  · rw [hst, hs.st, blockStep_cycle h, ← dumped_eq_map_range, stRecordOf, hrun]

theorem Records.length {run : Nat → State} {s : State} (h : Records run s) :
    s.rfTrace.length = s.cycle ∧ s.stTrace.length = s.cycle := by
  rw [h.rf, h.st, List.length_map, List.length_map, List.length_range]
  exact ⟨rfl, rfl⟩

theorem Records.getElem? {run : Nat → State} {s : State} (h : Records run s) {k : Nat}
    (hk : k < s.cycle) :
    s.rfTrace[k]? = some (rfRecordOf run k) ∧ s.stTrace[k]? = some (stRecordOf run k) := by
  rw [h.rf, h.st, List.getElem?_map, List.getElem?_map, List.getElem?_range hk]
  exact ⟨rfl, rfl⟩

/-! ### Along a run -/

section Runs

variable {Op : Type} (c : Collaborators Op) (draws : Nat → Bool)

/-- The first cycle of a run, whether or not the state has a step: without one it settles to itself. -/
theorem blockRun_first (k n : Nat) (s : State) :
    blockRun c draws k (n + 1) s =
      blockRun c draws (k + 1) n (settle s (blockStep c (draws k) s)) := by
  cases he : enabled s with
  | false =>
    obtain ⟨r, hr⟩ := blockStep_of_not_enabled (c := c) (flag := draws k) he
    rw [hr, settle, blockRun_of_not_enabled he, blockRun_of_not_enabled he]
  | true => exact blockRun_of_enabled he n

theorem blockRun_last (k n : Nat) (s : State) :
    blockRun c draws k (n + 1) s =
      settle (blockRun c draws k n s) (blockStep c (draws (k + n)) (blockRun c draws k n s)) := by
  induction n generalizing k s with
  | zero => exact blockRun_first c draws k 0 s
  | succ n ih => rw [blockRun_first, ih, ← blockRun_first, Nat.add_right_comm, Nat.add_assoc]

end Runs

/-- By induction on the cycles. A run that can go on has completed every cycle it was given, so its
next completed cycle is the one whose record the trace lacks; a fault or a refusal changes no trace
and leaves a run that cannot go on. -/
theorem records_run {Op : Type} {c : Collaborators Op} {draws : Nat → Bool} {run : Nat → State}
    (hzero : (run 0).cycle = 0) (hempty : Records run (run 0))
    (hnext : ∀ n, run (n + 1) = settle (run n) (blockStep c (draws n) (run n))) (n : Nat) :
    Records run (run n) ∧ (enabled (run n) = true → (run n).cycle = n) := by
  induction n with
  | zero => exact ⟨hempty, fun _ => hzero⟩
  | succ n ih =>
    obtain ⟨hrecords, hcount⟩ := ih
    have hrun := hnext n
    cases hstep : blockStep c (draws n) (run n) with
    | next t =>
      rw [hstep, settle] at hrun
      have hcycle : (run n).cycle = n := hcount (enabled_of_hasStep (blockStep_next hstep).1)
      have hshown : run ((run n).cycle + 1) = t := by rw [hcycle, hrun]
      rw [hrun, blockStep_cycle hstep, hcycle]
      exact ⟨records_blockStep hstep hrecords hshown, fun _ => rfl⟩
    | fault f =>
      rw [hstep, settle] at hrun
      rw [hrun, not_enabled_raiseFault]
      exact ⟨⟨hrecords.rf, hrecords.st⟩, nofun⟩
    | refused r =>
      rw [hstep, settle] at hrun
      have hstopped : enabled (run n) = false := blockStep_refused_iff.1 ⟨r, hstep⟩
      rw [hrun, hstopped]
      exact ⟨hrecords, nofun⟩

/-- Settles O49: each trace is the list of the run's records, whose length is the counter. -/
theorem tracesRecordTheRun : Obligations.TracesRecordTheRun := by
  intro Op c draws imem dmem n run
  have hnext : ∀ k, run (k + 1) = settle (run k) (blockStep c (draws k) (run k)) := by
    intro k
    have hlast := blockRun_last c draws 0 k (State.resetWith imem dmem)
    rwa [Nat.zero_add] at hlast
  obtain ⟨hrecords, -⟩ := records_run rfl ⟨rfl, rfl⟩ hnext n
  obtain ⟨hrf, hst⟩ := hrecords.length
  exact ⟨hrf, hst, fun k hk => hrecords.getElem? hk⟩

end Sys2Proof.Machine
end

section
/-! PROOFS. The metrics (spec/46_trace_and_metrics.md R236 to R238): the rounding error of
`roundHalfEven`, and from it IPC, CPI and the inferred count. -/

namespace Sys2Proof.Machine

/-! ### Rounding -/

/-- The two answers: down or up, the even one where the quotient lies in the middle. -/
theorem roundHalfEven_cases (n d : Nat) :
    (roundHalfEven n d = n / d ∧ 2 * (n % d) ≤ d ∧ (2 * (n % d) = d → n / d % 2 = 0)) ∨
      (roundHalfEven n d = n / d + 1 ∧ d ≤ 2 * (n % d) ∧
        (2 * (n % d) = d → (n / d + 1) % 2 = 0)) := by
  simp only [roundHalfEven]
  split_ifs with hbelow habove heven
  · exact .inl ⟨rfl, hbelow.le, fun h => absurd h hbelow.ne⟩
  · exact .inr ⟨rfl, habove.le, fun h => absurd h habove.ne'⟩
  · exact .inl ⟨rfl, not_lt.1 habove, fun _ => heven⟩
  · exact .inr ⟨rfl, not_lt.1 hbelow, fun _ => by omega⟩

/-- The rounded quotient, multiplied back, misses `n` by at most half of `d`, and by half of `d` only
if it is even. -/
theorem roundHalfEven_error (n : Nat) {d : Nat} (hd : 0 < d) :
    2 * |(roundHalfEven n d * d - n : Int)| ≤ d ∧
      (2 * |(roundHalfEven n d * d - n : Int)| = d → roundHalfEven n d % 2 = 0) := by
  have hn : (n : Int) = (n / d : Nat) * d + (n % d : Nat) := by
    exact_mod_cast (Nat.div_add_mod' n d).symm
  rcases roundHalfEven_cases n d with ⟨hround, hle, heven⟩ | ⟨hround, hle, heven⟩
  · have herror : ((n / d : Nat) * d - n : Int) = -(n % d : Nat) := by
      rw [hn, sub_add_cancel_left]
    rw [hround, herror, abs_neg, Nat.abs_cast]
    exact ⟨by omega, fun h => heven (by omega)⟩
  · have herror : ((n / d + 1 : Nat) * d - n : Int) = d - (n % d : Nat) := by
      rw [hn]
      push_cast
      ring
    have hr : n % d < d := Nat.mod_lt n hd
    rw [hround, herror, abs_of_pos (by omega)]
    exact ⟨by omega, fun h => heven (by omega)⟩

/-! ### IPC -/

/-- How far IPC lies from `(C - 1) / C`, by the error of its rounding. -/
theorem ipc_distance_eq_error_div {c : Nat} (hc : 0 < c) :
    |(ipcMillionths c : Rat) / 1000000 - ((c : Rat) - 1) / c| =
      (|(ipcMillionths c * c - ((c - 1) * 1000000 : Nat) : Int)| : Int) / (1000000 * c) := by
  have hpos : (0 : Rat) < c := Nat.cast_pos.2 hc
  have hscale : (ipcMillionths c : Rat) / 1000000 - ((c : Rat) - 1) / c =
      (ipcMillionths c * c - ((c - 1) * 1000000 : Nat) : Int) / (1000000 * c) := by
    push_cast [Nat.cast_sub hc]
    field_simp
  rw [hscale, abs_div, abs_of_pos (by positivity : (0 : Rat) < 1000000 * c), Int.cast_abs]

/-- Settles O58: the error of the rounding is at most half of `c`, so that of IPC at most half a
millionth. -/
theorem ipcIsNearestMillionth : Obligations.IpcIsNearestMillionth := by
  intro c hc
  have hpos : (0 : Rat) < 1000000 * c := by positivity
  obtain ⟨hle, heven⟩ := roundHalfEven_error ((c - 1) * 1000000) hc
  have hdistance := ipc_distance_eq_error_div hc
  rw [← ipcMillionths] at hle heven
  generalize |(ipcMillionths c * c - ((c - 1) * 1000000 : Nat) : Int)| = e at hle heven hdistance
  refine ⟨ipcMillionths c, rfl, ?near, fun htie => heven ?tie⟩
  case near =>
    have hle' : (2 * e : Rat) ≤ c := by exact_mod_cast hle
    rw [hdistance, div_le_iff₀ hpos]
    linarith
  case tie =>
    rw [hdistance, div_eq_iff hpos.ne'] at htie
    have heq : (2 * e : Rat) = c := by linarith
    exact_mod_cast heq

theorem ipcMillionths_eq_zero_iff {c : Nat} (hc : 0 < c) : ipcMillionths c = 0 ↔ c = 1 := by
  constructor
  · intro hzero
    obtain ⟨hle, -⟩ := roundHalfEven_error ((c - 1) * 1000000) hc
    rw [← ipcMillionths, hzero] at hle
    rw [Nat.cast_zero, zero_mul, zero_sub, abs_neg, Nat.abs_cast] at hle
    omega
  · rintro rfl
    decide

theorem ipcOf_eq_zero_iff (c : Nat) : ipcOf c = 0 ↔ ipcMillionths c = 0 := by
  simp [ipcOf]

/-! ### CPI and the inferred count -/

theorem cpiOf_of_ipcOf_ne_zero {c : Nat} (h : ipcOf c ≠ 0) : cpiOf c = some (1 / ipcOf c) := by
  rw [cpiOf, if_neg (mt (ipcOf_eq_zero_iff c).2 h), ipcOf, one_div_div]

theorem cpiOf_eq_none_iff (c : Nat) : cpiOf c = none ↔ ipcOf c = 0 := by
  rw [cpiOf, ipcOf_eq_zero_iff]
  split_ifs with h <;> simp [h]

theorem inferredCount_eq_ceil (c : Nat) : (inferredCount c : Int) = ⌈(c : Rat) * ipcOf c⌉ := by
  have hratio : (c : Rat) * ipcOf c = (c * ipcMillionths c : Nat) / (1000000 : Nat) := by
    rw [ipcOf]
    push_cast
    ring
  rw [hratio, Rat.ceil_natCast_div_natCast, inferredCount]
  omega

/-- Settles O59: where IPC is not 0, which is at every count but 1, CPI inverts it, so that the
inferred count by CPI is the one by IPC. -/
theorem cpiAndInferredCount : Obligations.CpiAndInferredCount := by
  intro c hc
  have hzero : ipcOf c = 0 ↔ c = 1 := (ipcOf_eq_zero_iff c).trans (ipcMillionths_eq_zero_iff hc)
  refine ⟨hzero, fun hone => (cpiOf_eq_none_iff c).2 (hzero.2 hone),
    fun hpos => cpiOf_of_ipcOf_ne_zero hpos.ne', inferredCount_eq_ceil c,
    fun q hq => ?byCpi, fun hone => ?atOne⟩
  case byCpi =>
    have hne : ipcOf c ≠ 0 := by
      rw [Ne, ← cpiOf_eq_none_iff, hq]
      exact Option.some_ne_none q
    rw [cpiOf_of_ipcOf_ne_zero hne, Option.some_inj] at hq
    rw [← hq, div_div_eq_mul_div, div_one]
    exact inferredCount_eq_ceil c
  case atOne =>
    rw [hone]
    decide

end Sys2Proof.Machine
end

section
/-! PROOFS. The words of a row under the test profile (spec/30_encoding.md R90 to R96,
spec/47_test_profile.md R251): each decodes to its row's operation, with the operands of its
format. -/

namespace Sys2Proof.Machine

open Sys2Proof.Claims

/-- `i` names the row; the operands it carries do not matter. -/
theorem decodeP_of_rowOf {i : Instr} (hi : i ≠ .halt) {w : Word}
    (hw : w &&& (rowOf i).1 = (rowOf i).2) : decodeP w = some ((tableRow i).build w) := by
  have hrow : rowOf i = ((tableRow i).mask, (tableRow i).pattern) := by
    rw [← fixedBits_eq_rowOf, fixedBits_eq_tableRow]
  have hdecode : decode w = .ok ((tableRow i).build w) :=
    decode_of_row (tableRow_mem i) (by rwa [hrow] at hw)
  refine (decodeP_eq_some_iff w _).2 ⟨hdecode, fun hhalt => ?_⟩
  rw [hhalt, decode_halt_iff] at hdecode
  rw [hdecode] at hw
  exact haltWord_selects_no_operation _ (rowOf_mem_operationRows hi) hw

/-! ### The operands of each format

The statements sign-extend an immediate to 32 bits before they read it; that keeps its value. -/

section Formats

variable (mk : RegIx → RegIx → RegIx → Instr) (mkImm : RegIx → RegIx → Int → Instr)
  (mkJump : RegIx → Int → Instr) (w : Word)

theorem buildR_eq_fields : buildR mk w = mk (regAt w 7) (regAt w 15) (regAt w 20) := rfl

theorem buildI_eq_fields : buildI mkImm w = mkImm (regAt w 7) (regAt w 15) (immediateI w) := by
  rw [immediateI, BitVec.toInt_signExtend_of_le (by decide)]
  rfl

theorem buildS_eq_fields : buildS mkImm w = mkImm (regAt w 20) (regAt w 15) (immediateS w) := by
  rw [immediateS, BitVec.toInt_signExtend_of_le (by decide)]
  rfl

theorem buildB_eq_fields : buildB mkImm w = mkImm (regAt w 15) (regAt w 20) (immediateB w) := by
  rw [immediateB, BitVec.toInt_signExtend_of_le (by decide)]
  rfl

theorem buildJ_eq_fields : buildJ mkJump w = mkJump (regAt w 7) (immediateJ w) := by
  rw [immediateJ, BitVec.toInt_signExtend_of_le (by decide)]
  rfl

end Formats

end Sys2Proof.Machine
end

section
/-! PROOFS. The frame of the profile's operations (spec/47_test_profile.md R252): the state each
shape completes to is the one with the next PC written, with at most a register or a stored word
changed besides. -/

namespace Sys2Proof.Machine

open Sys2Proof.Claims

/-! ### Successors and targets -/

/-- The successor is written modulo `2^32`, which the width of the PC does by itself. -/
theorem afterSuccessor_eq_withNextPC (s : State) :
    afterSuccessor s = withNextPC s (s.cur.IF.PC.toNat + 4) := by
  have hpc : BitVec.ofNat 32 (successorOf s.cur.IF.PC) =
      BitVec.ofNat 32 (s.cur.IF.PC.toNat + 4) := by
    apply BitVec.eq_of_toNat_eq
    rw [successorOf, BitVec.toNat_ofNat, BitVec.toNat_ofNat, Nat.mod_mod]
  rw [afterSuccessor, hpc, withNextPC]

theorem afterTarget_eq_withNextPC (s : State) (imm : Int) :
    afterTarget s imm = withNextPC s (targetOf s.cur.IF.PC imm) := rfl

theorem targetOf_aligned_iff (pc : Word) (imm : Int) :
    targetOf pc imm % 4 = 0 ↔ ((pc.toNat : Int) + imm) % 2 ^ 32 % 4 = 0 := by
  unfold targetOf
  omega

/-! ### A register write -/

theorem setReg_zero (s : State) (v : Int) : setReg s 0 v = s := if_pos rfl

theorem setReg_frame (s : State) (r : RegIx) (v : Int) :
    setReg s r v = { s with rf := (setReg s r v).rf } := by
  unfold setReg
  split_ifs <;> rfl

theorem setReg_dmem (s : State) (r : RegIx) (v : Int) : (setReg s r v).dmem = s.dmem :=
  (congrArg State.dmem (setReg_frame s r v) :)

theorem writesOnly_setReg (s : State) (pc : Nat) (rd : RegIx) {v : Int}
    (hv : representable v 32 = true) :
    WritesOnly rd v pc s (setReg (withNextPC s pc) rd v) := by
  refine ⟨fun r => ?value, fun r hr => ?slot, fun a => ?byte, setReg_frame _ rd v⟩
  case value =>
    rw [x_eq_regValue, x_eq_regValue, setReg_read _ _ _ hv]
    rfl
  case slot =>
    by_cases hne : r = rd
    · have hrd : rd = 0 := by rw [← hne]; exact hr.resolve_right (not_not_intro hne)
      rw [hrd, setReg_zero]
      rfl
    · exact setReg_slot_of_ne _ v hne
  case byte =>
    rw [setReg_dmem]
    rfl

/-! ### The shapes -/

section Shapes

variable {f : Int → Int → Int} {cond : Int → Int → Bool} (rd rs1 rs2 : RegIx) (imm : Int)
  (s : State)

theorem registerForm_writesOnly (hf : ∀ a b, representable (f a b) 32 = true) :
    ∃ t, runPorts (registerForm f rd rs1 rs2) s = .next t ∧
      WritesOnly rd (f (x s rs1) (x s rs2)) (s.cur.IF.PC.toNat + 4) s t := by
  refine ⟨_, runPorts_registerForm hf rd rs1 rs2 s, ?_⟩
  rw [x_eq_regValue, x_eq_regValue, afterSuccessor_eq_withNextPC]
  exact writesOnly_setReg s _ rd (hf _ _)

theorem immediateForm_writesOnly (hf : ∀ a b, representable (f a b) 32 = true) :
    ∃ t, runPorts (immediateForm f rd rs1 imm) s = .next t ∧
      WritesOnly rd (f (x s rs1) imm) (s.cur.IF.PC.toNat + 4) s t := by
  refine ⟨_, runPorts_immediateForm hf rd rs1 imm s, ?_⟩
  rw [x_eq_regValue, afterSuccessor_eq_withNextPC]
  exact writesOnly_setReg s _ rd (hf _ _)

theorem loadForm_writesOnly
    (h : effectiveAddress (x s rs1) imm + 4 ≤ s.dmem.size) :
    ∃ t, runPorts (loadForm rd rs1 imm) s = .next t ∧
      WritesOnly rd (bigEndianWord s.dmem (effectiveAddress (x s rs1) imm).toNat).toInt
        (s.cur.IF.PC.toNat + 4) s t := by
  rw [x_eq_regValue] at h ⊢
  refine ⟨_, runPorts_loadForm_ok rd rs1 imm s h, ?_⟩
  rw [afterSuccessor_eq_withNextPC]
  exact writesOnly_setReg s _ rd (representable_signed _)

theorem storeForm_stores (hwf : s.dmem.wf)
    (h : effectiveAddress (x s rs1) imm + 4 ≤ s.dmem.size) :
    ∃ t, runPorts (storeForm rs2 rs1 imm) s = .next t ∧
      HoldsWord t.dmem (effectiveAddress (x s rs1) imm).toNat (BitVec.ofInt 32 (x s rs2)) ∧
      SameOutside s.dmem t.dmem (effectiveAddress (x s rs1) imm).toNat ∧
      t = { withNextPC s (s.cur.IF.PC.toNat + 4) with dmem := t.dmem } := by
  rw [x_eq_regValue] at h ⊢
  rw [x_eq_regValue]
  have hwindow : (effectiveAddress (regValue s.rf rs1.val) imm).toNat + 4 ≤ s.dmem.size := by
    have := effectiveAddress_nonneg (regValue s.rf rs1.val) imm
    omega
  refine ⟨_, runPorts_storeForm_ok rs2 rs1 imm s h, holdsWord_storeWord hwf hwindow _,
    sameOutside_storeWord hwf hwindow _, ?_⟩
  rw [afterSuccessor_eq_withNextPC]

theorem branchForm_outcome :
    runPorts (branchForm cond rs1 rs2 imm) s =
      if cond (x s rs1) (x s rs2) then
        if ((s.cur.IF.PC.toNat : Int) + imm) % 2 ^ 32 % 4 = 0 then
          .next (withNextPC s (targetOf s.cur.IF.PC imm))
        else .fault (.misalignedTarget (targetOf s.cur.IF.PC imm))
      else .next (withNextPC s (s.cur.IF.PC.toNat + 4)) := by
  simp only [runPorts_branchForm, x_eq_regValue, targetOf_aligned_iff,
    afterSuccessor_eq_withNextPC, afterTarget_eq_withNextPC]

theorem jumpForm_writesOnly (h : ((s.cur.IF.PC.toNat : Int) + imm) % 2 ^ 32 % 4 = 0) :
    ∃ t, runPorts (jumpForm rd imm) s = .next t ∧
      WritesOnly rd (linkOf s.cur.IF.PC) (targetOf s.cur.IF.PC imm) s t := by
  rw [runPorts_jumpForm, if_pos ((targetOf_aligned_iff _ _).2 h)]
  exact ⟨_, rfl, writesOnly_setReg s _ rd (representable_linkOf _)⟩

theorem jumpForm_misaligned (h : ((s.cur.IF.PC.toNat : Int) + imm) % 2 ^ 32 % 4 ≠ 0) :
    runPorts (jumpForm rd imm) s = .fault (.misalignedTarget (targetOf s.cur.IF.PC imm)) := by
  rw [runPorts_jumpForm, if_neg (mt (targetOf_aligned_iff _ _).1 h)]

end Shapes

end Sys2Proof.Machine
end

section
/-! PROOFS. The operations of the test profile (spec/47_test_profile.md R253 to R267): the words of
each row, and the shape each operation runs. -/

namespace Sys2Proof.Machine

open Sys2Proof.Claims

/-! ### Registers and immediates (R253 to R261) -/

section Rules

variable {mk : RegIx → RegIx → RegIx → Instr} {mkImm : RegIx → RegIx → Int → Instr}
  {pattern : Word} {f : Int → Int → Int}

theorem regRegRule_of_registerForm
    (hrow : ∀ w : Word, w &&& 0xFE00707F = pattern → decodeP w = some (buildR mk w))
    (hexec : ∀ rd rs1 rs2 s, exec (mk rd rs1 rs2) s = runPorts (registerForm f rd rs1 rs2) s)
    (hf : ∀ a b, representable (f a b) 32 = true) : RegRegRule mk pattern f := by
  refine ⟨fun w hw => ?row, fun rd rs1 rs2 s => ?effect⟩
  case row => rw [hrow w hw, buildR_eq_fields]
  case effect =>
    rw [hexec]
    exact registerForm_writesOnly rd rs1 rs2 s hf

theorem regImmRule_of_immediateForm
    (hrow : ∀ w : Word, w &&& 0x0000707F = pattern → decodeP w = some (buildI mkImm w))
    (hexec : ∀ rd rs1 imm s, exec (mkImm rd rs1 imm) s = runPorts (immediateForm f rd rs1 imm) s)
    (hf : ∀ a b, representable (f a b) 32 = true) : RegImmRule mkImm pattern f := by
  refine ⟨fun w hw => ?row, fun rd rs1 imm s => ?effect⟩
  case row => rw [hrow w hw, buildI_eq_fields]
  case effect =>
    rw [hexec]
    exact immediateForm_writesOnly rd rs1 imm s hf

end Rules

/-- Settles O6: the R-type row of `ADD`, and `registerForm` with the wrapped sum. -/
theorem addRule : Obligations.AddRule :=
  regRegRule_of_registerForm (fun _ => decodeP_of_rowOf (i := .add 0 0 0) nofun)
    (fun _ _ _ _ => rfl) representable_sumOf

/-- Settles O7: the R-type row of `SUB`, and `registerForm` with the wrapped difference. -/
theorem subRule : Obligations.SubRule :=
  regRegRule_of_registerForm (fun _ => decodeP_of_rowOf (i := .sub 0 0 0) nofun)
    (fun _ _ _ _ => rfl) representable_differenceOf

/-- Settles O8: the R-type row of `XOR`, and `registerForm` with the bitwise exclusive or. -/
theorem xorRule : Obligations.XorRule :=
  regRegRule_of_registerForm (fun _ => decodeP_of_rowOf (i := .xor 0 0 0) nofun)
    (fun _ _ _ _ => rfl) representable_xorOf

/-- Settles O9: the R-type row of `OR`, and `registerForm` with the bitwise or. -/
theorem orRule : Obligations.OrRule :=
  regRegRule_of_registerForm (fun _ => decodeP_of_rowOf (i := .or 0 0 0) nofun)
    (fun _ _ _ _ => rfl) representable_orOf

/-- Settles O10: the R-type row of `AND`, and `registerForm` with the bitwise and. -/
theorem andRule : Obligations.AndRule :=
  regRegRule_of_registerForm (fun _ => decodeP_of_rowOf (i := .and 0 0 0) nofun)
    (fun _ _ _ _ => rfl) representable_andOf

/-- Settles O11: the I-type row of `ADDI`, and `immediateForm` with the wrapped sum. -/
theorem addiRule : Obligations.AddiRule :=
  regImmRule_of_immediateForm (fun _ => decodeP_of_rowOf (i := .addi 0 0 0) nofun)
    (fun _ _ _ _ => rfl) representable_sumOf

/-- Settles O12: the I-type row of `XORI`, and `immediateForm` with the bitwise exclusive or. -/
theorem xoriRule : Obligations.XoriRule :=
  regImmRule_of_immediateForm (fun _ => decodeP_of_rowOf (i := .xori 0 0 0) nofun)
    (fun _ _ _ _ => rfl) representable_xorOf

/-- Settles O13: the I-type row of `ORI`, and `immediateForm` with the bitwise or. -/
theorem oriRule : Obligations.OriRule :=
  regImmRule_of_immediateForm (fun _ => decodeP_of_rowOf (i := .ori 0 0 0) nofun)
    (fun _ _ _ _ => rfl) representable_orOf

/-- Settles O14: the I-type row of `ANDI`, and `immediateForm` with the bitwise and. -/
theorem andiRule : Obligations.AndiRule :=
  regImmRule_of_immediateForm (fun _ => decodeP_of_rowOf (i := .andi 0 0 0) nofun)
    (fun _ _ _ _ => rfl) representable_andOf

/-! ### Loads and stores (R262, R263) -/

/-- Settles O15: the load inside the memory, and the load whose window leaves it. -/
theorem lwRule : Obligations.LwRule := by
  refine ⟨fun w hw => ?row, fun rd rs1 imm s => ⟨fun hin => ?inside, fun hout => ?outside⟩⟩
  case row =>
    rw [← buildI_eq_fields .lw]
    exact decodeP_of_rowOf (i := .lw 0 0 0) nofun hw
  case inside => exact loadForm_writesOnly rd rs1 imm s hin
  case outside =>
    rw [x_eq_regValue] at hout ⊢
    exact runPorts_loadForm_fault rd rs1 imm s hout

/-- Settles O16: the store inside the memory, and the store whose window leaves it. -/
theorem swRule : Obligations.SwRule := by
  refine ⟨fun w hw => ?row, fun rs2 rs1 imm s hwf => ⟨fun hin => ?inside, fun hout => ?outside⟩⟩
  case row =>
    rw [← buildS_eq_fields .sw]
    exact decodeP_of_rowOf (i := .sw 0 0 0) nofun hw
  case inside => exact storeForm_stores rs1 rs2 imm s hwf hin
  case outside =>
    rw [x_eq_regValue] at hout ⊢
    exact runPorts_storeForm_fault rs2 rs1 imm s hout

/-! ### Branches and the jump (R264 to R266) -/

theorem branchRule_of_branchForm {mk : RegIx → RegIx → Int → Instr} {pattern : Word}
    {cond : Int → Int → Bool} {holds : Int → Int → Prop}
    (hrow : ∀ w : Word, w &&& 0x0000707F = pattern → decodeP w = some (buildB mk w))
    (hexec : ∀ rs1 rs2 imm s, exec (mk rs1 rs2 imm) s = runPorts (branchForm cond rs1 rs2 imm) s)
    (hcond : ∀ a b, cond a b = true ↔ holds a b) : BranchRule mk pattern holds := by
  refine ⟨fun w hw => ?row, fun rs1 rs2 imm s => ?outcome⟩
  case row => rw [hrow w hw, buildB_eq_fields]
  case outcome =>
    rw [hexec, branchForm_outcome]
    refine ⟨fun htaken haligned => ?taken, fun htaken hmisaligned => ?fault, fun hnot => ?notTaken⟩
    case taken => rw [if_pos ((hcond _ _).2 htaken), if_pos haligned, targetOf]
    case fault => rw [if_pos ((hcond _ _).2 htaken), if_neg hmisaligned, targetOf]
    case notTaken => rw [if_neg (mt (hcond _ _).1 hnot)]

/-- Settles O17: the B-type row of `BEQ`, and `branchForm` with equality. -/
theorem beqRule : Obligations.BeqRule :=
  branchRule_of_branchForm (fun _ => decodeP_of_rowOf (i := .beq 0 0 0) nofun)
    (fun _ _ _ _ => rfl) fun _ _ => decide_eq_true_iff

/-- Settles O18: the B-type row of `BNE`, and `branchForm` with inequality. -/
theorem bneRule : Obligations.BneRule :=
  branchRule_of_branchForm (fun _ => decodeP_of_rowOf (i := .bne 0 0 0) nofun)
    (fun _ _ _ _ => rfl) fun _ _ => decide_eq_true_iff

/-- Settles O19: the jump to an aligned target, and the one to a misaligned target. -/
theorem jalRule : Obligations.JalRule := by
  refine ⟨fun w hw => ?row, fun rd imm s => ⟨fun haligned => ?jumps, fun hmisaligned => ?faults⟩⟩
  case row =>
    rw [← buildJ_eq_fields .jal]
    exact decodeP_of_rowOf (i := .jal 0 0) nofun hw
  case jumps => exact jumpForm_writesOnly rd imm s haligned
  case faults => exact jumpForm_misaligned rd imm s hmisaligned

/-! ### `HALT` (R267) -/

/-- Settles O20: a fetched `HALT` is a word that decodes to no operation. -/
theorem haltRule : Obligations.HaltRule := by
  refine ⟨decodeP_haltWord, fun s => rfl, fun s hs hin hword => step_of_decodeP_none hs hin ?_⟩
  rw [hword]
  exact decodeP_haltWord

/-! ### What every operation leaves, and how it can fault (R252) -/

theorem AdvancesLatches.live_and_frame {s t : State} (h : AdvancesLatches s t) :
    t.nxt.IF.nop = false ∧ { t.nxt with IF := s.nxt.IF } = s.nxt := by
  rcases h with hsucc | ⟨imm, -, hjump⟩
  · rw [hsucc]
    exact ⟨rfl, rfl⟩
  · rw [hjump]
    exact ⟨rfl, rfl⟩

/-- The two faults that the rules of the operations name. -/
def IsProfileFault (f : Fault) : Prop :=
  (∃ a, f = .dataOutOfBounds a) ∨ ∃ t, f = .misalignedTarget t

section Faults

variable {s : State} {fault : Fault} {f : Int → Int → Int} {cond : Int → Int → Bool}
  {rd rs1 rs2 : RegIx} {imm : Int}

theorem registerForm_not_fault (hf : ∀ a b, representable (f a b) 32 = true) :
    runPorts (registerForm f rd rs1 rs2) s ≠ .fault fault := by
  rw [runPorts_registerForm hf]
  exact nofun

theorem immediateForm_not_fault (hf : ∀ a b, representable (f a b) 32 = true) :
    runPorts (immediateForm f rd rs1 imm) s ≠ .fault fault := by
  rw [runPorts_immediateForm hf]
  exact nofun

theorem loadForm_fault (h : runPorts (loadForm rd rs1 imm) s = .fault fault) :
    IsProfileFault fault := by
  rcases le_or_gt (effectiveAddress (regValue s.rf rs1.val) imm + 4) s.dmem.size with hin | hout
  · rw [runPorts_loadForm_ok _ _ _ _ hin] at h
    cases h
  · rw [runPorts_loadForm_fault _ _ _ _ hout] at h
    cases h
    exact .inl ⟨_, rfl⟩

theorem storeForm_fault (h : runPorts (storeForm rs2 rs1 imm) s = .fault fault) :
    IsProfileFault fault := by
  rcases le_or_gt (effectiveAddress (regValue s.rf rs1.val) imm + 4) s.dmem.size with hin | hout
  · rw [runPorts_storeForm_ok _ _ _ _ hin] at h
    cases h
  · rw [runPorts_storeForm_fault _ _ _ _ hout] at h
    cases h
    exact .inl ⟨_, rfl⟩

theorem branchForm_fault (h : runPorts (branchForm cond rs1 rs2 imm) s = .fault fault) :
    IsProfileFault fault := by
  rw [runPorts_branchForm] at h
  split_ifs at h
  cases h
  exact .inr ⟨_, rfl⟩

theorem jumpForm_fault (h : runPorts (jumpForm rd imm) s = .fault fault) :
    IsProfileFault fault := by
  rw [runPorts_jumpForm] at h
  split_ifs at h
  cases h
  exact .inr ⟨_, rfl⟩

end Faults

theorem exec_fault {i : Instr} {s : State} {f : Fault} (h : exec i s = .fault f) :
    IsProfileFault f := by
  cases i with
  | add => exact absurd h (registerForm_not_fault representable_sumOf)
  | sub => exact absurd h (registerForm_not_fault representable_differenceOf)
  | xor => exact absurd h (registerForm_not_fault representable_xorOf)
  | or => exact absurd h (registerForm_not_fault representable_orOf)
  | and => exact absurd h (registerForm_not_fault representable_andOf)
  | addi => exact absurd h (immediateForm_not_fault representable_sumOf)
  | xori => exact absurd h (immediateForm_not_fault representable_xorOf)
  | ori => exact absurd h (immediateForm_not_fault representable_orOf)
  | andi => exact absurd h (immediateForm_not_fault representable_andOf)
  | lw => exact loadForm_fault h
  | sw => exact storeForm_fault h
  | beq => exact branchForm_fault h
  | bne => exact branchForm_fault h
  | jal => exact jumpForm_fault h
  | halt => cases h

/-- Settles O22: what an operation leaves in `nxt`, and the faults of the shapes. -/
theorem profileCommonPart : Obligations.ProfileCommonPart := fun i s hi =>
  ⟨fun _ h => (exec_advances hi h).live_and_frame, fun _ => exec_fault, exec_not_refused i s⟩

/-! ### Pseudo-instructions (R269) -/

theorem representable_x (s : State) (r : RegIx) : representable (x s r) 32 = true := by
  rw [x_eq_regValue]
  exact representable_regValue _ _

theorem x_zero (s : State) : x s 0 = 0 := if_pos rfl

theorem sumOf_zero_right {v : Int} (h : representable v 32 = true) : sumOf v 0 = v := by
  rw [sumOf, add_zero, wrap32_of_representable h]

theorem sumOf_zero_left {v : Int} (h : representable v 32 = true) : sumOf 0 v = v := by
  rw [sumOf, zero_add, wrap32_of_representable h]

theorem differenceOf_zero_left (v : Int) : differenceOf 0 v = wrap32 (-v) := by
  rw [differenceOf, zero_sub]

/-- Exclusive or with all ones is the one's complement, which is `-v - 1`. -/
theorem xorOf_neg_one {v : Int} (h : representable v 32 = true) : xorOf v (-1) = -v - 1 := by
  have hrange : representable (-v - 1) 32 = true := by
    rw [representable_32_iff] at h ⊢
    omega
  have hbits : bitsOf v ^^^ bitsOf (-1) = BitVec.ofInt 32 (-v - 1) := by
    calc bitsOf v ^^^ bitsOf (-1) = ~~~bitsOf v := BitVec.xor_allOnes
      _ = -bitsOf v - 1#32 := BitVec.not_eq_neg_add _
      _ = BitVec.ofInt 32 (-v - 1) := by
        rw [BitVec.sub_eq_add_neg, Int.sub_eq_add_neg, BitVec.ofInt_add, BitVec.ofInt_neg]
        rfl
  rw [xorOf, hbits, signed_ofInt hrange]

theorem exec_nop (s : State) :
    exec (expandPseudo .nop) s = .next (withNextPC s (s.cur.IF.PC.toNat + 4)) := by
  rw [← afterSuccessor_eq_withNextPC, ← setReg_zero (afterSuccessor s)]
  exact runPorts_immediateForm representable_sumOf 0 0 0 s

/-- Settles O23: `nop` by its expansion, the others by what their shapes write, with the result
worked out for the operands of the expansion. -/
theorem pseudoInstructionEffects : Obligations.PseudoInstructionEffects := by
  intro rd rs imm s
  refine ⟨exec_nop s, ?mv, fun hlow hhigh => ?li, ?not, ?neg⟩
  case mv =>
    have heffect := immediateForm_writesOnly rd rs 0 s representable_sumOf
    rwa [sumOf_zero_right (representable_x s rs)] at heffect
  case li =>
    have heffect := immediateForm_writesOnly rd 0 imm s representable_sumOf
    have himm : representable imm 32 = true := (representable_32_iff imm).2 ⟨by omega, by omega⟩
    rwa [x_zero, sumOf_zero_left himm] at heffect
  case not =>
    have heffect := immediateForm_writesOnly rd rs (-1) s representable_xorOf
    rwa [xorOf_neg_one (representable_x s rs)] at heffect
  case neg =>
    have heffect := registerForm_writesOnly rd 0 rs s representable_differenceOf
    rwa [x_zero, differenceOf_zero_left] at heffect

end Sys2Proof.Machine
end

section
/-! PROOFS. The machine is the block with the test profile (spec/47_test_profile.md R250 to R252):
on every word its steps 3 and 4 are those of the profile's decoder and executor. -/

namespace Sys2Proof.Machine

theorem decodeAndDispatch_eq_decodeAndExecute (draw flag : Bool) (w : Word) (s : State) :
    decodeAndDispatch draw w s = decodeAndExecute profile flag w s := by
  cases hw : decodeP w with
  | none => rw [decodeAndDispatch_of_decodeP_none hw, decodeAndExecute_none (c := profile) hw]
  | some i =>
    obtain ⟨hdecode, hi⟩ := (decodeP_eq_some_iff w i).1 hw
    rw [decodeAndExecute_some (c := profile) hw]
    simp only [decodeAndDispatch, hdecode]
    exact exec_eq_runPorts hi flag s

/-- Settles O53: two cycles with the same steps 3 and 4 are the same. -/
theorem stepIsTheProfiledBlock : Obligations.StepIsTheProfiledBlock := fun flag _ =>
  cycleWith_congr fun w => decodeAndDispatch_eq_decodeAndExecute _ flag w _

theorem runCycles_eq_blockRun (draws : Nat → Bool) (k n : Nat) (s : State) :
    runCycles n s = blockRun profile draws k n s := by
  induction n generalizing k s with
  | zero => rfl
  | succ n ih => rw [runCycles, blockRun, stepIsTheProfiledBlock (draws k), ih (k + 1)]

end Sys2Proof.Machine
end

section
/-! PROOFS. What a port call sees of the calls before it in the same cycle
(spec/70_reset_and_hazards.md R337, R339): every earlier write of a register or of a data word, and
no write of the next latches. -/

namespace Sys2Proof.Machine

open Sys2Proof.Claims

/-! ### Registers and data memory (R339) -/

section Visible

variable {s : State} {v : Int} (rest : Int → PortProgram)

theorem runPorts_readReg_setReg {r : RegIx} (hr : r ≠ 0) (hv : representable v 32 = true) :
    runPorts (.readReg r.val rest) (setReg s r v) = runPorts (rest v) (setReg s r v) := by
  have hread : rfRead (setReg s r v) r.val = .ok v := by
    rw [rfRead_reg, setReg_read s r r hv, if_pos ⟨hr, rfl⟩]
  simp only [runPorts, hread]

theorem runPorts_writeReg_readReg {r : RegIx} (hr : r ≠ 0) (hv : representable v 32 = true) :
    runPorts (.writeReg r.val v (.readReg r.val rest)) s =
      runPorts (.writeReg r.val v (rest v)) s := by
  have hwrite : rfWrite s r.val v = .ok (setReg s r v) := rfWrite_reg s r hv
  rw [runPorts_writeReg, runPorts_writeReg, hwrite]
  exact runPorts_readReg_setReg rest hr hv

theorem runPorts_writeMem_readMem (hwf : s.dmem.wf) (hv : representable v 32 = true) (a : Int) :
    runPorts (.writeMem a v (.readMem a rest)) s = runPorts (.writeMem a v (rest v)) s := by
  rw [runPorts_writeMem, runPorts_writeMem]
  by_cases hout : a < 0 ∨ (s.dmem.size : Int) < a + 4
  · rw [memWrite_error hout]
    rfl
  · obtain ⟨h0, hin⟩ : 0 ≤ a ∧ a + 4 ≤ s.dmem.size := by omega
    rw [memWrite_ok h0 hin hv]
    simp only [runAfter, runPorts, memRead_storeWord hwf h0 hin hv]

end Visible

/-- Settles O46: the register read back from its write, and the data word from its. -/
theorem writesVisibleInTheSameCycle : Obligations.WritesVisibleInTheSameCycle := by
  intro s v rest hwf hlow hhigh
  have hv : representable v 32 = true := (representable_32_iff v).2 ⟨hlow, hhigh⟩
  exact ⟨fun r hr => runPorts_writeReg_readReg rest hr hv, runPorts_writeMem_readMem rest hwf hv⟩

/-! ### The next latches (R337) -/

theorem runPorts_writePC_readCur (s : State) (v : Int) (rest : PipelineState → PortProgram) :
    runPorts (.writePC v (.readCur rest)) s = runPorts (.writePC v (rest s.cur)) s := by
  rw [runPorts_writePC, runPorts_writePC]
  cases hwrite : writeNextPC s v with
  | error f => rfl
  | ok t =>
    obtain ⟨-, -, rfl⟩ := writeNextPC_inv hwrite
    rfl

/-- Settles O47: no write of `nxt` changes `cur`, and a write that faults ends the program. -/
theorem nextLatchesHiddenUntilCommit : Obligations.NextLatchesHiddenUntilCommit := fun s rest =>
  ⟨fun _ => rfl, fun v => runPorts_writePC_readCur s v rest, fun _ => rfl⟩

end Sys2Proof.Machine
end

section
/-! PROOFS. One operation in every cycle but the last (spec/70_reset_and_hazards.md R340): the fetch
of a run from reset stays live, so the run goes on exactly past the words that decode to
operations. -/

namespace Sys2Proof.Machine

open Sys2Proof.Claims

/-- Every cycle before `m` fetches a word that decodes to an operation. -/
def ExecutedBefore (run : Nat → State) (m : Nat) : Prop :=
  ∀ k < m, (decodeP (fetchedWord (run k))).isSome = true

theorem ExecutedBefore.succ {run : Nat → State} {m : Nat} (h : ExecutedBefore run m)
    (hlast : decodeP (fetchedWord (run m)) ≠ none) : ExecutedBefore run (m + 1) := by
  intro k hk
  rcases Nat.lt_succ_iff_lt_or_eq.1 hk with hlt | rfl
  · exact h k hlt
  · exact Option.isSome_iff_ne_none.2 hlast

/-! ### One cycle -/

section Cycle

variable {flag : Bool} {s t : State}

theorem blockStep_profile_cur_live (h : blockStep profile flag s = .next t)
    (hs : s.cur.IF.nop = false) : t.cur.IF.nop = false := by
  rw [← stepIsTheProfiledBlock flag] at h
  obtain ⟨-, w, u, -, hact, rfl⟩ := cycleWith_next h
  rw [closeCycle_cur]
  rcases decodeAndDispatch_next hact with rfl | ⟨i, -, hi, hexec⟩
  · rwa [setHalted_nxt, openCycle_nxt]
  · exact (exec_advances hi hexec).live_and_frame.1

theorem settle_blockStep_profile_cur_live (flag : Bool) (hs : s.cur.IF.nop = false) :
    (settle s (blockStep profile flag s)).cur.IF.nop = false := by
  cases h : blockStep profile flag s with
  | next t => exact blockStep_profile_cur_live h hs
  | fault f => exact hs
  | refused r => exact hs

/-- With a live fetch only the decoder halts. -/
theorem blockStep_profile_halted_iff (h : blockStep profile flag s = .next t)
    (hs : s.cur.IF.nop = false) : t.halted = true ↔ decodeP (fetchedWord s) = none := by
  rw [blockStep_halted_iff h, hs]
  exact or_iff_right Bool.false_ne_true

end Cycle

/-! ### Along a run -/

section Runs

variable {draws : Nat → Bool} {run : Nat → State} (hlive : (run 0).cur.IF.nop = false)
  (hnext : ∀ n, run (n + 1) = settle (run n) (blockStep profile (draws n) (run n)))
include hlive hnext

theorem run_cur_live (n : Nat) : (run n).cur.IF.nop = false := by
  induction n with
  | zero => exact hlive
  | succ n ih =>
    rw [hnext]
    exact settle_blockStep_profile_cur_live (draws n) ih

/-- A run that can go on has executed an operation in every cycle so far. -/
theorem executedBefore_of_enabled (n : Nat) (he : enabled (run n) = true) :
    ExecutedBefore run n := by
  induction n with
  | zero => exact nofun
  | succ n ih =>
    rw [hnext] at he
    cases hstep : blockStep profile (draws n) (run n) with
    | next t =>
      rw [hstep, settle, enabled_iff] at he
      have hoperation : decodeP (fetchedWord (run n)) ≠ none := by
        rw [Ne, ← blockStep_profile_halted_iff hstep (run_cur_live hlive hnext n), he.1]
        exact Bool.false_ne_true
      exact (ih (enabled_of_hasStep (blockStep_next hstep).1)).succ hoperation
    | fault f =>
      rw [hstep, settle, not_enabled_raiseFault] at he
      cases he
    | refused r =>
      rw [hstep, settle] at he
      exact absurd hstep (blockStep_ne_refused he r)

/-- The cycle that ends a run is the one that halts: before it the run could go on, and after it
nothing changes. -/
theorem executedBefore_of_ended (hstart : enabled (run 0) = true)
    (hcount : ∀ n, enabled (run n) = true → (run n).cycle = n) (n : Nat)
    (hend : ended (run n) = true) :
    ∃ m, (run n).cycle = m + 1 ∧ ExecutedBefore run m ∧
      decodeP (fetchedWord (run m)) = none := by
  induction n with
  | zero =>
    rw [not_enabled_of_halted ((ended_iff _).1 hend).1] at hstart
    cases hstart
  | succ n ih =>
    rw [hnext] at hend ⊢
    cases hstep : blockStep profile (draws n) (run n) with
    | next t =>
      rw [hstep, settle] at hend
      have he : enabled (run n) = true := enabled_of_hasStep (blockStep_next hstep).1
      have hcycle : t.cycle = n + 1 := by rw [blockStep_cycle hstep, hcount n he]
      have hnone : decodeP (fetchedWord (run n)) = none :=
        (blockStep_profile_halted_iff hstep (run_cur_live hlive hnext n)).1
          ((ended_iff t).1 hend).1
      exact ⟨n, hcycle, executedBefore_of_enabled hlive hnext n he, hnone⟩
    | fault f =>
      rw [hstep, settle] at hend
      exact absurd ((ended_iff _).1 hend).2 (Option.some_ne_none f)
    | refused r =>
      rw [hstep, settle] at hend
      exact ih hend

end Runs

/-- Settles O55: the run is one of the block with the profile, it starts live and enabled, and while
it can go on its counter is the number of cycles run. -/
theorem endedRunExecutedAllButOne : Obligations.EndedRunExecutedAllButOne := by
  intro imem dmem n run
  have hrun : ∀ k, run k =
      blockRun profile (fun _ => false) 0 k (State.resetWith imem dmem) := fun k =>
    runCycles_eq_blockRun _ 0 k _
  have hnext : ∀ k, run (k + 1) = settle (run k) (blockStep profile false (run k)) := by
    intro k
    rw [hrun, hrun, blockRun_last]
  exact executedBefore_of_ended rfl hnext rfl
    (fun k => (records_run rfl ⟨rfl, rfl⟩ hnext k).2) n

end Sys2Proof.Machine
end
